-- ==== Sys2Proof/Word.lean ====
section
/-! DEFINITION. The bit string of `00_scope.md` R7 and the number it denotes (R8). -/

namespace Sys2Proof

/-- A bit string (R7): its characters, most significant first, `true` for `1`.
The empty list is `ε`. Its length is part of what it is (R13), so this is a list and not a number. -/
abbrev Bits := List Bool

/-- `toInt(s)` (R8): the natural number a bit string denotes in base 2, `ε` denoting 0. -/
def toInt (s : Bits) : Nat :=
  s.foldl (fun n b => 2 * n + b.toNat) 0

end Sys2Proof
end

