-- ==== Sys2Proof/Config.lean ====
section
/-! DEFINITION. What the block is parameterised by (`00_scope.md` R5) and what the parameters must satisfy (R6).
The canonical values stand in `Sys2Proof/Machine/Parameters.lean`. -/

namespace Sys2Proof

/-- The five register names (R14): the set is exactly these. Which index names which is `Config.regNames`. -/
inductive RegName where
  | AC
  | DR
  | CR
  | PC
  | IR
deriving DecidableEq, Repr

/-- The eight operations of the dispatch table (R50). Which opcode selects which is `Config.opcodeMap`.
The continuation marker is not an operation (R51). -/
inductive Operation where
  | moveRegisterConstant
  | moveRegisterMemory
  | moveMemoryConstant
  | moveMemoryMemory
  | moveMemoryRegister
  | addRegisterConstant
  | addRegisterMemory
  | addMemoryRegister
deriving DecidableEq, Repr

/-- The parameters of R5, each row a field. They are fixed at construction and are no part of the state (R12). -/
structure Config where
  /-- `W`: the longest string a cell holds, and the length of an instruction word. -/
  W : Nat
  /-- `O`: the width of the opcode field. -/
  O : Nat
  /-- `R`: the width of a register reference in first position. -/
  R : Nat
  /-- `A`: the width of a memory address in first position. -/
  A : Nat
  /-- `N`: the number of memory cells. -/
  N : Nat
  /-- `REG_NAMES`: index `i` names its `i`-th entry. -/
  regNames : List RegName
  /-- `OPCODE_MAP`: the dispatch table, opcode value to operation. -/
  opcodeMap : List (Nat × Operation)
  /-- `RESET_REG[r]` (R27): what a register holds at power-on. -/
  resetReg : RegName → Bits
  /-- `RESET_MEM[a]` (R41): what a memory cell holds at power-on. -/
  resetMem : Nat → Bits

namespace Config

/-- `CONT = 2^O - 1` (R51): the continuation marker, the opcode field all ones. -/
def CONT (cfg : Config) : Nat := 2 ^ cfg.O - 1

/-- The width of one word's operand field, `W - O` (R44). -/
def operandWidth (cfg : Config) : Nat := cfg.W - cfg.O

/-- What the parameters must satisfy: R6's constraints; the register names are the five of R14, each once;
the dispatch table gives each of the eight operations one opcode, no opcode twice, and never maps the marker (R50, R51);
no cell starts longer than `W` (R27, R41). -/
structure Valid (cfg : Config) : Prop where
  opcode_pos : 0 < cfg.O
  opcode_lt_word : cfg.O < cfg.W
  reg_fits : cfg.R ≤ cfg.operandWidth
  addr_fits : cfg.A ≤ cfg.operandWidth
  cells_pos : 1 ≤ cfg.N
  names_indexable : cfg.regNames.length ≤ 2 ^ cfg.R
  cells_addressable : cfg.N ≤ 2 ^ cfg.A
  names_once : cfg.regNames.Nodup
  names_all : ∀ r, r ∈ cfg.regNames
  opcodes_once : (cfg.opcodeMap.map Prod.fst).Nodup
  opcodes_below_marker : ∀ p ∈ cfg.opcodeMap, p.1 < cfg.CONT
  operations_once : (cfg.opcodeMap.map Prod.snd).Nodup
  operations_all : ∀ op, op ∈ cfg.opcodeMap.map Prod.snd
  resetReg_length : ∀ r, (cfg.resetReg r).length ≤ cfg.W
  resetMem_length : ∀ a, (cfg.resetMem a).length ≤ cfg.W

end Config

end Sys2Proof
end

