-- ==== Sys2Proof/Machine/Parameters.lean ====
section
/-! DEFINITION. The canonical variant: the value of every parameter of `00_scope.md` R5, and which of them is the width of an
operation's first sub-field. -/

namespace Sys2Proof

/-- The order of the register names, index 0 first (R14, the spec's decision D1; log entry 2). -/
def canonicalRegNames : List RegName := [.AC, .DR, .CR, .PC, .IR]

/-- The opcode of each operation (R50, the spec's decision D3; log entry 3). -/
def canonicalOpcodeMap : List (Nat × Operation) :=
  [(0, .moveRegisterConstant), (1, .moveRegisterMemory), (2, .moveMemoryConstant), (3, .moveMemoryMemory),
   (4, .moveMemoryRegister), (5, .addRegisterConstant), (6, .addRegisterMemory), (7, .addMemoryRegister)]

/-- `RESET_REG` is OPEN in the spec (R27, D10). DESIGN CHOICE, unsafe (log entry 4): every register starts as the
one-character string `0`, the string an integer store of zero leaves. -/
def canonicalResetReg : RegName → Bits := fun _ => [false]

/-- `RESET_MEM` is OPEN in the spec (R41, D10). DESIGN CHOICE, unsafe (log entry 5): every cell starts as the
one-character string `0`. -/
def canonicalResetMem : Nat → Bits := fun _ => [false]

/-- The parameters of the canonical variant (R5, D21; log entry 1). -/
def config : Config where
  W := 32
  O := 6
  R := 3
  A := 10
  N := 8
  regNames := canonicalRegNames
  opcodeMap := canonicalOpcodeMap
  resetReg := canonicalResetReg
  resetMem := canonicalResetMem

/-- The width `k` of an operation's first sub-field (R46): `R` where its first operand is a register, `A` where it is an
address (the formats of R48 and R50). -/
def Operation.firstWidth (cfg : Config) : Operation → Nat
  | .moveRegisterConstant | .moveRegisterMemory | .addRegisterConstant | .addRegisterMemory => cfg.R
  | .moveMemoryConstant | .moveMemoryMemory | .moveMemoryRegister | .addMemoryRegister => cfg.A

end Sys2Proof
end

