-- ==== Sys2Proof/Machine/BitWord.lean ====
section
/-! DEFINITION. The BitWord conversions of `00_scope.md` R9 and R10, and the cut of a long operand tail into the
operand fields of continuation words (the inverse of R49, for the encoder). -/

namespace Sys2Proof

/-- The `k` low bits of `v`, most significant first. -/
def natBits : Nat → Nat → Bits
  | 0, _ => []
  | k + 1, v => v.testBit k :: natBits k v

/-- `s` with zeros in front, up to length `k`. -/
def padLeft (k : Nat) (s : Bits) : Bits :=
  List.replicate (k - s.length) false ++ s

/-- The binary expansion of `v` with no leading zero (R9). That of 0 is the one character `0`: the spec's decision D2
(log entry 6). -/
def expansion (v : Nat) : Bits :=
  natBits (Nat.log2 v + 1) v

/-- `fromInt(v, k)` (R9): the expansion of `v`, padded with zeros in front to at least `k` characters. -/
def fromInt (v : Nat) (minBits : Nat := 0) : Bits :=
  padLeft minBits (expansion v)

/-- `strip0(s)` (R10): `s` from its first `1` on. A string with no `1` leaves `ε`: the spec's decision D5 (log entry 7). -/
def strip0 : Bits → Bits
  | [] => []
  | true :: t => true :: t
  | false :: t => strip0 t

/-- A string cut before each of its `1`s; what stands before the first `1` is left out. -/
def units : Bits → List Bits
  | [] => []
  | true :: t => (true :: t.takeWhile (! ·)) :: units t
  | false :: t => units t

/-- Put a unit in front of pieces, into the first one if the two fit in `k` characters. -/
def glue (k : Nat) (u : Bits) : List Bits → List Bits
  | [] => [u]
  | p :: ps => if u.length + p.length ≤ k then (u ++ p) :: ps else u :: p :: ps

/-- A string cut into as few pieces as possible, each beginning with `1` and each at most `k` characters long where
the string's zeros allow it. -/
def pieces (k : Nat) (s : Bits) : List Bits :=
  (units s).foldr (glue k) []

end Sys2Proof
end

