-- ==== Sys2Proof/Syntax.lean ====
section
/-! DEFINITION. The instructions, one constructor per row of `spec/opcode_table.json`. -/

namespace Sys2Proof

/-- An instruction, its operand sub-fields as the bit strings the split rule (R45) leaves them.
The strings are kept whole because their length matters: the second sub-field grows with continuation (R49), every
character of it counts (R47), and one operation stores it unconverted (R73).
An operand that names no register or no cell is still an instruction: it raises its error when it runs (R47). -/
inductive Instr where
  /-- R71, opcode 0: register field, constant. -/
  | moveRegisterConstant (r c : Bits)
  /-- R72, opcode 1: register field, address. -/
  | moveRegisterMemory (r a : Bits)
  /-- R73, opcode 2: address, raw constant. -/
  | moveMemoryConstant (a c : Bits)
  /-- R74, opcode 3: destination address, source address. -/
  | moveMemoryMemory (d src : Bits)
  /-- R75, opcode 4: address, register field. -/
  | moveMemoryRegister (a r : Bits)
  /-- R77, opcode 5: register field, constant. -/
  | addRegisterConstant (r c : Bits)
  /-- R78, opcode 6: register field, address. -/
  | addRegisterMemory (r a : Bits)
  /-- R79, opcode 7: address, register field. -/
  | addMemoryRegister (a r : Bits)
  /-- R69, opcode 63: a continuation prefix word and its operand bits. -/
  | prefixWord (x : Bits)
deriving DecidableEq, Repr

namespace Instr

/-- The operation an instruction runs. A prefix word has none of its own: the word after it supplies it (R51). -/
def operation? : Instr → Option Operation
  | moveRegisterConstant _ _ => some .moveRegisterConstant
  | moveRegisterMemory _ _ => some .moveRegisterMemory
  | moveMemoryConstant _ _ => some .moveMemoryConstant
  | moveMemoryMemory _ _ => some .moveMemoryMemory
  | moveMemoryRegister _ _ => some .moveMemoryRegister
  | addRegisterConstant _ _ => some .addRegisterConstant
  | addRegisterMemory _ _ => some .addRegisterMemory
  | addMemoryRegister _ _ => some .addMemoryRegister
  | prefixWord _ => none

/-- The sub-field in first position (all of a prefix word's operand bits). -/
def firstField : Instr → Bits
  | moveRegisterConstant r _ => r
  | moveRegisterMemory r _ => r
  | moveMemoryConstant a _ => a
  | moveMemoryMemory d _ => d
  | moveMemoryRegister a _ => a
  | addRegisterConstant r _ => r
  | addRegisterMemory r _ => r
  | addMemoryRegister a _ => a
  | prefixWord x => x

/-- The sub-field in second position. -/
def secondField : Instr → Bits
  | moveRegisterConstant _ c => c
  | moveRegisterMemory _ a => a
  | moveMemoryConstant _ c => c
  | moveMemoryMemory _ src => src
  | moveMemoryRegister _ r => r
  | addRegisterConstant _ c => c
  | addRegisterMemory _ a => a
  | addMemoryRegister _ r => r
  | prefixWord _ => []

/-- The whole operand field: the first sub-field, then the second (R45). -/
def field (i : Instr) : Bits := i.firstField ++ i.secondField

end Instr

end Sys2Proof
end

