-- ==== Sys2Proof/WellFormed.lean ====
section
/-! DEFINITION. The check on instructions: well-formed is what some words of a memory encode (R42 to R49, R54). -/

namespace Sys2Proof

namespace Instr

/-- The width of an instruction's first sub-field; of a prefix word, of all its operand bits (R48). -/
def firstWidth (cfg : Config) (i : Instr) : Nat :=
  match i.operation? with
  | some op => op.firstWidth cfg
  | none => cfg.operandWidth

/-- What the operand field has beyond one word's (R49). -/
def tail (cfg : Config) (i : Instr) : Bits :=
  i.field.drop cfg.operandWidth

/-- The tail as the continuation words carry it (R49). -/
def tailPieces (cfg : Config) (i : Instr) : List Bits :=
  pieces cfg.operandWidth (i.tail cfg)

/-- The first sub-field has its fixed width (R46). -/
def firstWidthOk (cfg : Config) (i : Instr) : Bool :=
  i.firstField.length == i.firstWidth cfg

/-- The operand field fills at least one word's (R44). -/
def fieldLongEnough (cfg : Config) (i : Instr) : Bool :=
  decide (cfg.operandWidth ≤ i.field.length)

/-- The tail of a combined field cannot begin with `0` (R57). -/
def tailStripped (cfg : Config) (i : Instr) : Bool :=
  strip0 (i.tail cfg) == i.tail cfg

/-- Each piece of the tail fits in one word's operand field (R49). -/
def tailCuttable (cfg : Config) (i : Instr) : Bool :=
  (i.tailPieces cfg).all fun p => decide (p.length ≤ cfg.operandWidth)

/-- The instruction's words fit in the memory (R67): one, and one more for each piece of the tail. -/
def fitsMemory (cfg : Config) (i : Instr) : Bool :=
  decide ((i.tailPieces cfg).length + 1 ≤ cfg.N)

/-- Well-formed: some words of a memory encode it. -/
abbrev WellFormed (cfg : Config) (i : Instr) : Prop :=
  i.firstWidthOk cfg = true ∧ i.fieldLongEnough cfg = true ∧ i.tailStripped cfg = true ∧
    i.tailCuttable cfg = true ∧ i.fitsMemory cfg = true

/-- Well-formed in one word: no continuation, so the fields have the widths of R48's table exactly. -/
abbrev OneWord (cfg : Config) (i : Instr) : Prop :=
  i.firstWidthOk cfg = true ∧ i.field.length = cfg.operandWidth

end Instr

end Sys2Proof
end

