-- ==== Sys2Proof/Decode.lean ====
section
/-! DEFINITION. The instruction decoder (`30_encoding.md`, `40_fetch_decode.md` R59 to R64) as a total function on
bit strings, rejecting by name, and after it the encoder. -/

namespace Sys2Proof

/-- Why words decode to no instruction. -/
inductive DecodeError where
  /-- A word whose length is not `W` (R59). -/
  | malformed
  /-- An opcode the dispatch table does not hold (R52). -/
  | undefinedOpcode (op : Nat)
  /-- The words end before a word that is no prefix word (R54). -/
  | wordsEnd
deriving DecidableEq, Repr

/-- What one word decodes to. -/
inductive WordDecoded where
  | instr (i : Instr)
  | error (e : DecodeError)
deriving DecidableEq, Repr

/-- What a list of words decodes to: an instruction, or an error, and the words after the last one read. -/
inductive Decoded where
  | instr (i : Instr) (rest : List Bits)
  | error (e : DecodeError) (rest : List Bits)
deriving DecidableEq, Repr

/-- The opcode field of a word, its first `O` characters (R43). -/
def opcodeField (cfg : Config) (w : Bits) : Bits := w.take cfg.O

/-- The operand field of a word, its other characters (R44). -/
def operandField (cfg : Config) (w : Bits) : Bits := w.drop cfg.O

/-- The first sub-field of an operand field (R45). -/
def firstSub (cfg : Config) (op : Operation) (F : Bits) : Bits := F.take (op.firstWidth cfg)

/-- The second sub-field: every character after the first sub-field (R45; conflict C7, log entry 8). -/
def secondSub (cfg : Config) (op : Operation) (F : Bits) : Bits := F.drop (op.firstWidth cfg)

/-- An operation on an operand field, split by R45. -/
def Instr.ofField (cfg : Config) (op : Operation) (F : Bits) : Instr :=
  match op with
  | .moveRegisterConstant => .moveRegisterConstant (firstSub cfg op F) (secondSub cfg op F)
  | .moveRegisterMemory => .moveRegisterMemory (firstSub cfg op F) (secondSub cfg op F)
  | .moveMemoryConstant => .moveMemoryConstant (firstSub cfg op F) (secondSub cfg op F)
  | .moveMemoryMemory => .moveMemoryMemory (firstSub cfg op F) (secondSub cfg op F)
  | .moveMemoryRegister => .moveMemoryRegister (firstSub cfg op F) (secondSub cfg op F)
  | .addRegisterConstant => .addRegisterConstant (firstSub cfg op F) (secondSub cfg op F)
  | .addRegisterMemory => .addRegisterMemory (firstSub cfg op F) (secondSub cfg op F)
  | .addMemoryRegister => .addMemoryRegister (firstSub cfg op F) (secondSub cfg op F)

/-- The combined operand field: a prefix word's operand bits, then the stripped operand bits of what follows (R62, R63). -/
def combine (x ops : Bits) : Bits := x ++ strip0 ops

/-- The instruction that a prefix word with operand bits `x` makes of the instruction after it: the same operation on
the combined field, split anew, so that the first sub-field comes from `x` (R49). -/
def Instr.extend (cfg : Config) (x : Bits) (i : Instr) : Instr :=
  match i.operation? with
  | some op => Instr.ofField cfg op (combine x i.field)
  | none => i

/-- One word (R59, R60): its length is checked first; then the marker opcode makes it a prefix word (R51), an opcode of
the dispatch table an operation (R50), and any other opcode is rejected by name (R52). -/
def decodeWord (cfg : Config) (w : Bits) : WordDecoded :=
  if w.length ≠ cfg.W then .error .malformed
  else if toInt (opcodeField cfg w) = cfg.CONT then .instr (.prefixWord (operandField cfg w))
  else match cfg.opcodeMap.lookup (toInt (opcodeField cfg w)) with
    | some op => .instr (Instr.ofField cfg op (operandField cfg w))
    | none => .error (.undefinedOpcode (toInt (opcodeField cfg w)))

/-- A whole instruction (R54, R64): words are read in order until one is no prefix word, and each prefix word extends
what follows it. -/
def decode (cfg : Config) : List Bits → Decoded
  | [] => .error .wordsEnd []
  | w :: ws =>
    match decodeWord cfg w with
    | .error e => .error e ws
    | .instr (.prefixWord x) =>
      match decode cfg ws with
      | .instr i rest => .instr (i.extend cfg x) rest
      | .error e rest => .error e rest
    | .instr i => .instr i ws

/-- A table word of `nbits` bits as the words the memory holds (R42: position 0 of a word is its bit 31): the first
word is the low `W` bits, later words count on from it. At least one word. -/
def tableWords (cfg : Config) (nbits w : Nat) : List Bits :=
  (List.range (max 1 ((nbits + cfg.W - 1) / cfg.W))).map fun k => natBits cfg.W ((w % 2 ^ nbits) >>> (cfg.W * k))

/-- Whether a word is a prefix word (R51). -/
def isPrefixWord (cfg : Config) (w : Bits) : Bool :=
  w.length == cfg.W && toInt (opcodeField cfg w) == cfg.CONT

/-- The words of a table instruction whose bits above `nbits` are zero: where all its words are prefix words, a word of
zeros ends it. -/
def instructionWords (cfg : Config) (nbits w : Nat) : List Bits :=
  let ws := tableWords cfg nbits w
  if ws.all (isPrefixWord cfg) then ws ++ [natBits cfg.W 0] else ws

/-- The instruction the decoder reads from the first word of a table word. -/
def decodeTableWord (nbits w : Nat) : Option Instr :=
  match decodeWord config ((tableWords config nbits w).headD []) with
  | .instr i => some i
  | .error _ => none

/-! ## The encoder -/

/-- The opcode of an operation in the dispatch table (R50). -/
def opcodeOf (cfg : Config) (op : Operation) : Nat :=
  ((cfg.opcodeMap.find? fun p => p.2 = op).map Prod.fst).getD 0

/-- A word from its opcode and its operand field (R57). -/
def packWord (cfg : Config) (op : Nat) (ops : Bits) : Bits :=
  natBits cfg.O op ++ ops

/-- The words of opcode `op` on an operand field: `base` fills the first word, and each piece of the tail, padded in
front to a whole operand field, one more; all but the last are prefix words (R49, R57). -/
def packWords (cfg : Config) (op : Nat) : Bits → List Bits → List Bits
  | base, [] => [packWord cfg op base]
  | base, p :: ps => packWord cfg cfg.CONT base :: packWords cfg op (padLeft cfg.operandWidth p) ps

/-- The words of a well-formed instruction. -/
def encode (cfg : Config) (i : Instr) : List Bits :=
  match i.operation? with
  | some op => packWords cfg (opcodeOf cfg op) (i.field.take cfg.operandWidth) (i.tailPieces cfg)
  | none => [packWord cfg cfg.CONT i.field]

end Sys2Proof
end

