-- ==== Sys2Proof/Machine/State.lean ====
section
/-! DEFINITION. The architectural state (`10_state.md`, `20_memory.md`) as plain data, the error kinds of
`60_exceptions.md`, the reasons a step stops, and the state at power-on. -/

namespace Sys2Proof.Machine

/-- The five error kinds of R81 (the fifth is the spec's own, decision D4). -/
inductive ErrorKind where
  | registerNotFound
  | addressNotFound
  | valueTooLong
  | malformedInstruction
  | undefinedOpcode
deriving DecidableEq, Repr

/-- The outcome a host operation reports (R70, R81): `OK` or the kind of the first error raised. -/
inductive Status where
  | ok
  | error (e : ErrorKind)
deriving DecidableEq, Repr

/-- One memory cell that differs from its power-on contents: its address and its bit string. The memory has no bytes
(R32), so a cell is not a `Host.Cell` (log entry 9). -/
abbrev Cell := Nat × Bits

/-- The memory (R28): the cells that differ from `RESET_MEM`, addresses strictly rising. -/
abbrev Memory := List Cell

/-- The state: the register bank and the memory, and nothing else (R12, R26).
`status` is the MODEL's own field, not the hardware's (R96 allows such a record): the outcome the last `step` or
`loadProgram` reported, which no operation reads (log entry 10). -/
structure State where
  /-- AC, accumulator (R14). -/
  ac : Bits
  /-- DR, data register (R14). -/
  dr : Bits
  /-- CR, counter register (R14). -/
  cr : Bits
  /-- PC, program counter (R20). -/
  pc : Bits
  /-- IR, instruction register (R24). -/
  ir : Bits
  /-- The memory (R28). -/
  mem : Memory
  /-- The reported outcome (R70). -/
  status : Status
deriving DecidableEq, Repr

/-- A value to be stored (R17): a bit string, stored as it is, or a natural number, converted first. -/
inductive Value where
  | bits (s : Bits)
  | int (v : Nat)
deriving DecidableEq, Repr

/-- What a sub-operation ends in (R11): a value and the state after it, or an error raised and the state that the
sub-operations before the failing one left (R87). -/
inductive Result (α : Type) where
  | ok (a : α) (s : State)
  | raised (e : ErrorKind) (s : State)
deriving DecidableEq, Repr

/-- Reasons the machine stops with a fault: none. Every error of R81 ends one host operation and leaves a state from which
the next one runs (R70, R87, R92), so an error is a next state whose `status` names it, never a stop (log entry 10). -/
inductive Fault where
deriving DecidableEq, Repr

/-- Reasons for which the model gives no meaning. -/
inductive Refusal where
  /-- An instruction without a meaning; raised by no arm of `exec`. Safe. -/
  | notModelled (mnemonic : String)
  /-- A program line holding a character other than `0` and `1` (R98, decision D13); raised by `loadText` only.
  Safe: such a line is outside the hardware's domain. -/
  | nonBinaryLine
deriving DecidableEq, Repr

/-- The state at power-on for given parameters (R97): every register at `RESET_REG`, no cell differing from `RESET_MEM`. -/
def State.powerOn (cfg : Config) : State where
  ac := cfg.resetReg .AC
  dr := cfg.resetReg .DR
  cr := cfg.resetReg .CR
  pc := cfg.resetReg .PC
  ir := cfg.resetReg .IR
  mem := []
  status := .ok

/-- The machine right after construction, its OPEN contents at the values that log entries 4 and 5 name (R97). -/
def State.reset : State := State.powerOn config

end Sys2Proof.Machine
end

