-- ==== Sys2Proof/Machine/Flags.lean ====
section
/-! DEFINITION. The arithmetic law of `42_add.md` R76. There are no flags to compute: the core has no status flag and no
condition code (`10_state.md` R26), and an add sets no carry and no overflow. -/

namespace Sys2Proof.Machine

/-- The one arithmetic operation (R76): the exact sum of two cells read as unsigned integers, to be stored through the
integer path, whose length check is the only overflow. -/
def sum (x y : Bits) : Value := .int (toInt x + toInt y)

end Sys2Proof.Machine
end

