-- ==== Sys2Proof/Machine/Ops.lean ====
section
/-! DEFINITION. The named operations over registers and memory: the pseudocode primitives of `00_scope.md` R11, the
fetch (R58), and raising an error (R87). -/

namespace Sys2Proof.Machine

/-! ## Sequencing and errors -/

/-- Statements run strictly in order, and the first that raises ends the operation in the state it was reached in (R11). -/
def Result.bind {α β : Type} (x : Result α) (f : α → State → Result β) : Result β :=
  match x with
  | .ok a s => f a s
  | .raised e s => .raised e s

/-- The state an operation ends in. -/
def Result.state {α : Type} : Result α → State
  | .ok _ s => s
  | .raised _ s => s

/-- The outcome an operation reports (R70). -/
def Result.status {α : Type} : Result α → Status
  | .ok _ _ => .ok
  | .raised e _ => .error e

/-- A state that reports `st`. -/
def State.report (s : State) (st : Status) : State := { s with status := st }

/-- The end of a host operation (R87, R91): the state it left, nothing undone, with the outcome it reports. An error saves
nothing, changes no mode and transfers no control, and the next operation starts from this state (R92). -/
def finish (x : Result Unit) : Host.Outcome State Fault Refusal :=
  .next (x.state.report x.status)

/-- The numeric code of a reported outcome (R81; the numbers are decision D20). -/
def Status.code : Status → Nat
  | .ok => 0
  | .error .registerNotFound => 1
  | .error .addressNotFound => 2
  | .error .valueTooLong => 3
  | .error .malformedInstruction => 4
  | .error .undefinedOpcode => 5

/-! ## Registers -/

/-- `reg[r]` (R16): the full stored bit string. -/
def State.reg (s : State) : RegName → Bits
  | .AC => s.ac
  | .DR => s.dr
  | .CR => s.cr
  | .PC => s.pc
  | .IR => s.ir

/-- The state with one register's bit string replaced. -/
def State.setReg (s : State) (r : RegName) (b : Bits) : State :=
  match r with
  | .AC => { s with ac := b }
  | .DR => { s with dr := b }
  | .CR => { s with cr := b }
  | .PC => { s with pc := b }
  | .IR => { s with ir := b }

/-- The one normalization step before a store (R17): a natural is converted with no minimum length. -/
def Value.normalize : Value → Bits
  | .bits s => s
  | .int v => fromInt v

/-- `reg[r] <- v` (R17). The name is one of the five by its type, so only the length check is left. -/
def storeReg (cfg : Config) (r : RegName) (v : Value) (s : State) : Result Unit :=
  if cfg.W < v.normalize.length then .raised .valueTooLong s
  else .ok () (s.setReg r v.normalize)

/-! ## Memory -/

/-- What the memory holds at `a`: the listed string, or the power-on contents (R37). -/
def Memory.read (cfg : Config) (m : Memory) (a : Nat) : Bits :=
  match m with
  | [] => cfg.resetMem a
  | (b, u) :: m => if a = b then u else Memory.read cfg m a

/-- The memory with the cell at `a` holding `v`; a cell that holds its power-on contents is not listed. -/
def Memory.write (cfg : Config) (m : Memory) (a : Nat) (v : Bits) : Memory :=
  match m with
  | [] => if v = cfg.resetMem a then [] else [(a, v)]
  | (b, u) :: m =>
    if a < b then (if v = cfg.resetMem a then (b, u) :: m else (a, v) :: (b, u) :: m)
    else if a = b then (if v = cfg.resetMem a then m else (a, v) :: m)
    else (b, u) :: Memory.write cfg m a v

/-- The canonical form of a memory: addresses strictly rising and below `N` (R28), each string at most `W` long (R13) and
different from what an unlisted cell holds. -/
abbrev Memory.wf (cfg : Config) (m : Memory) : Prop :=
  m.Pairwise (fun p q => p.1 < q.1) ∧
    ∀ p ∈ m, p.1 < cfg.N ∧ p.2.length ≤ cfg.W ∧ p.2 ≠ cfg.resetMem p.1

/-- `MemRead(a)` (R30). -/
def memRead (cfg : Config) (a : Nat) (s : State) : Result Bits :=
  if a < cfg.N then .ok (s.mem.read cfg a) s else .raised .addressNotFound s

/-- `MemWrite(a, v)` (R31): the address check before the length check. -/
def memWrite (cfg : Config) (a : Nat) (v : Value) (s : State) : Result Unit :=
  if a < cfg.N then
    if cfg.W < v.normalize.length then .raised .valueTooLong s
    else .ok () { s with mem := s.mem.write cfg a v.normalize }
  else .raised .addressNotFound s

/-- Words written to the cells from address `a` on. -/
def State.placeWords (s : State) (a : Nat) : List Bits → State
  | [] => s
  | w :: ws => ({ s with mem := s.mem.write config a w }).placeWords (a + 1) ws

/-! ## Fetch -/

/-- `Fetch()` (R58): the word at PC goes to IR and PC moves on by one; a failed read writes neither. -/
def fetch (cfg : Config) (s : State) : Result Bits :=
  (memRead cfg (toInt (s.reg .PC)) s).bind fun w s1 =>
  (storeReg cfg .IR (.bits w) s1).bind fun _ s2 =>
  (storeReg cfg .PC (.int (toInt (s.reg .PC) + 1)) s2).bind fun _ s3 =>
  .ok w s3

end Sys2Proof.Machine
end

