-- ==== Sys2Proof/Machine/Operands.lean ====
section
/-! DEFINITION. The operand types of `30_encoding.md` R47. No value is signed, scaled, shifted or sign-extended. -/

namespace Sys2Proof.Machine

/-- A register reference: `regname(s)` (R15), its field's whole value an index into the register names. -/
def resolveReg (cfg : Config) (field : Bits) (s : State) : Result RegName :=
  match cfg.regNames[toInt field]? with
  | some r => .ok r s
  | none => .raised .registerNotFound s

/-- The address a field names: its whole value (R47). The access made with it checks it. -/
def address (field : Bits) : Nat := toInt field

/-- An address in first position that is checked before the second sub-field is resolved (R74, R75, R79; decision D9). -/
def resolveAddress (cfg : Config) (field : Bits) (s : State) : Result Nat :=
  if address field < cfg.N then .ok (address field) s else .raised .addressNotFound s

/-- A constant used as an integer (R47): stored through the integer path. -/
def integerConstant (field : Bits) : Value := .int (toInt field)

/-- A constant used raw (R47): the field's own bit string. -/
def rawConstant (field : Bits) : Value := .bits field

/-- A register's bit string, copied unconverted (`41_move.md`; decision D6). -/
def registerCopy (r : RegName) (s : State) : Value := .bits (s.reg r)

end Sys2Proof.Machine
end

