-- ==== Sys2Proof/Machine/Add.lean ====
section
/-! DEFINITION. The add instructions (`42_add.md`), in the two forms of `Machine/Move.lean`. -/

namespace Sys2Proof.Machine

/-- R77: register ← register + constant. -/
def addRegisterConstant (cfg : Config) (r c : Bits) (s : State) : Result Unit :=
  (resolveReg cfg r s).bind fun name s => storeReg cfg name (sum (s.reg name) c) s

/-- R78: register ← memory cell + register. -/
def addRegisterMemory (cfg : Config) (r a : Bits) (s : State) : Result Unit :=
  (resolveReg cfg r s).bind fun name s =>
  (memRead cfg (address a) s).bind fun v s =>
  storeReg cfg name (sum v (s.reg name)) s

/-- R79: memory cell ← memory cell + register, the one address read and written. -/
def addMemoryRegister (cfg : Config) (a r : Bits) (s : State) : Result Unit :=
  (resolveAddress cfg a s).bind fun dst s =>
  (resolveReg cfg r s).bind fun name s =>
  (memRead cfg dst s).bind fun v s =>
  memWrite cfg dst (sum v (s.reg name)) s

/-- The meaning of `add-register-constant`. -/
def execAddRegisterConstant (r c : Bits) (s : State) : Host.Outcome State Fault Refusal :=
  finish (addRegisterConstant config r c s)

/-- The meaning of `add-register-memory`. -/
def execAddRegisterMemory (r a : Bits) (s : State) : Host.Outcome State Fault Refusal :=
  finish (addRegisterMemory config r a s)

/-- The meaning of `add-memory-register`. -/
def execAddMemoryRegister (a r : Bits) (s : State) : Host.Outcome State Fault Refusal :=
  finish (addMemoryRegister config a r s)

end Sys2Proof.Machine
end

