-- ==== Sys2Proof/Machine/Move.lean ====
section
/-! DEFINITION. The move instructions (`41_move.md`). Each has its pseudocode over any parameters, and beside it the
meaning the dispatch calls, at the canonical parameters. -/

namespace Sys2Proof.Machine

/-- R71: register ← integer value of the constant. -/
def moveRegisterConstant (cfg : Config) (r c : Bits) (s : State) : Result Unit :=
  (resolveReg cfg r s).bind fun name s => storeReg cfg name (integerConstant c) s

/-- R72: register ← memory cell, copied raw. -/
def moveRegisterMemory (cfg : Config) (r a : Bits) (s : State) : Result Unit :=
  (resolveReg cfg r s).bind fun name s =>
  (memRead cfg (address a) s).bind fun v s =>
  storeReg cfg name (.bits v) s

/-- R73: memory cell ← the constant's own bit string. -/
def moveMemoryConstant (cfg : Config) (a c : Bits) (s : State) : Result Unit :=
  memWrite cfg (address a) (rawConstant c) s

/-- R74: destination cell ← source cell, copied raw. The first sub-field is the destination (decision D7). -/
def moveMemoryMemory (cfg : Config) (d src : Bits) (s : State) : Result Unit :=
  (resolveAddress cfg d s).bind fun dst s =>
  (memRead cfg (address src) s).bind fun v s =>
  memWrite cfg dst (.bits v) s

/-- R75: memory cell ← register, copied raw. -/
def moveMemoryRegister (cfg : Config) (a r : Bits) (s : State) : Result Unit :=
  (resolveAddress cfg a s).bind fun dst s =>
  (resolveReg cfg r s).bind fun name s =>
  memWrite cfg dst (registerCopy name s) s

/-- The meaning of `move-register-constant`. -/
def execMoveRegisterConstant (r c : Bits) (s : State) : Host.Outcome State Fault Refusal :=
  finish (moveRegisterConstant config r c s)

/-- The meaning of `move-register-memory`. -/
def execMoveRegisterMemory (r a : Bits) (s : State) : Host.Outcome State Fault Refusal :=
  finish (moveRegisterMemory config r a s)

/-- The meaning of `move-memory-constant`. -/
def execMoveMemoryConstant (a c : Bits) (s : State) : Host.Outcome State Fault Refusal :=
  finish (moveMemoryConstant config a c s)

/-- The meaning of `move-memory-memory`. -/
def execMoveMemoryMemory (d src : Bits) (s : State) : Host.Outcome State Fault Refusal :=
  finish (moveMemoryMemory config d src s)

/-- The meaning of `move-memory-register`. -/
def execMoveMemoryRegister (a r : Bits) (s : State) : Host.Outcome State Fault Refusal :=
  finish (moveMemoryRegister config a r s)

end Sys2Proof.Machine
end

