-- ==== Sys2Proof/Machine/Execute.lean ====
section
/-! DEFINITION. The execution unit's dispatch (`40_fetch_decode.md` R66), over any parameters, and the error kinds the decoder's
rejections are reported by. -/

namespace Sys2Proof.Machine

/-- The rule of an operation, on its two sub-fields. -/
def operate (cfg : Config) (op : Operation) (first second : Bits) (s : State) : Result Unit :=
  match op with
  | .moveRegisterConstant => moveRegisterConstant cfg first second s
  | .moveRegisterMemory => moveRegisterMemory cfg first second s
  | .moveMemoryConstant => moveMemoryConstant cfg first second s
  | .moveMemoryMemory => moveMemoryMemory cfg first second s
  | .moveMemoryRegister => moveMemoryRegister cfg first second s
  | .addRegisterConstant => addRegisterConstant cfg first second s
  | .addRegisterMemory => addRegisterMemory cfg first second s
  | .addMemoryRegister => addMemoryRegister cfg first second s

/-- The rule of an operation, on an operand field split by R45. -/
def perform (cfg : Config) (op : Operation) (F : Bits) (s : State) : Result Unit :=
  operate cfg op (firstSub cfg op F) (secondSub cfg op F) s

/-- `Execute(op, F)` (R66): an opcode the dispatch table does not hold raises `UndefinedOpcode`, with every fetch of the
step done and before any operand is resolved (R52, R86; decision D4). -/
def execute (cfg : Config) (op : Nat) (F : Bits) (s : State) : Result Unit :=
  match cfg.opcodeMap.lookup op with
  | some o => perform cfg o F s
  | none => .raised .undefinedOpcode s

/-- The error kind a step reports for words that decode to no instruction. -/
def errorOf : DecodeError → ErrorKind
  | .malformed => .malformedInstruction
  | .undefinedOpcode _ => .undefinedOpcode
  | .wordsEnd => .addressNotFound

end Sys2Proof.Machine
end

