-- ==== Sys2Proof/Machine/Continuation.lean ====
section
/-! DEFINITION. The continuation protocol (`40_fetch_decode.md` R59 to R64), the meaning of the prefix word (R69), and the
whole fetch/decode/execute cycle (R65), over any parameters. -/

namespace Sys2Proof.Machine

/-- `analyze(w)` (R64): the effective opcode and the combined operand field. Each level fetches the word after the
last one and checks its length in turn. `fuel` bounds the levels; a chain has at most `N` words, since the fetch past the
last cell raises `AddressNotFound` (R67), and with fuel `N` the last arm is reached only where that fetch raises it too. -/
def analyze (cfg : Config) (fuel : Nat) (w : Bits) (s : State) : Result (Nat × Bits) :=
  if w.length ≠ cfg.W then .raised .malformedInstruction s
  else if toInt (opcodeField cfg w) = cfg.CONT then
    match fuel with
    | fuel + 1 =>
      (fetch cfg s).bind fun w2 s =>
      (analyze cfg fuel w2 s).bind fun r s =>
      .ok (r.1, combine (operandField cfg w) r.2) s
    | 0 => .raised .addressNotFound s
  else .ok (toInt (opcodeField cfg w), operandField cfg w) s

/-- R69, the `op == CONT` branch of R64 and what follows it: fetch the next word, analyze it, and execute the effective
opcode on the prefix word's operand bits followed by the stripped remainder. -/
def continuation (cfg : Config) (x : Bits) (s : State) : Result Unit :=
  (fetch cfg s).bind fun w s =>
  (analyze cfg cfg.N w s).bind fun r s =>
  execute cfg r.1 (combine x r.2) s

/-- The meaning of the continuation prefix word. -/
def execPrefixWord (x : Bits) (s : State) : Host.Outcome State Fault Refusal :=
  finish (continuation config x s)

/-- `step()` as R65 writes it, over any parameters: fetch, analyze, execute. -/
def cycle (cfg : Config) (s : State) : Result Unit :=
  (fetch cfg s).bind fun w s =>
  (analyze cfg cfg.N w s).bind fun r s =>
  execute cfg r.1 r.2 s

end Sys2Proof.Machine
end

