-- ==== Sys2Proof/Machine/Dispatch.lean ====
section
/-! DEFINITION. The meaning of every instruction, one arm a constructor. -/

namespace Sys2Proof.Machine

def exec (i : Instr) (s : State) : Host.Outcome State Fault Refusal :=
  match i with
  | .moveRegisterConstant r c => Sys2Proof.Machine.execMoveRegisterConstant r c s
  | .moveRegisterMemory r a => Sys2Proof.Machine.execMoveRegisterMemory r a s
  | .moveMemoryConstant a c => Sys2Proof.Machine.execMoveMemoryConstant a c s
  | .moveMemoryMemory d src => Sys2Proof.Machine.execMoveMemoryMemory d src s
  | .moveMemoryRegister a r => Sys2Proof.Machine.execMoveMemoryRegister a r s
  | .addRegisterConstant r c => Sys2Proof.Machine.execAddRegisterConstant r c s
  | .addRegisterMemory r a => Sys2Proof.Machine.execAddRegisterMemory r a s
  | .addMemoryRegister a r => Sys2Proof.Machine.execAddMemoryRegister a r s
  | .prefixWord x => Sys2Proof.Machine.execPrefixWord x s

end Sys2Proof.Machine
end

