-- ==== Sys2Proof/Machine/Step.lean ====
section
/-! DEFINITION. One step of the machine, and the placing of an instruction where the next step fetches. -/

namespace Sys2Proof.Machine

/-- `step()` (R65): fetch the word at PC, decode it, run the instruction. Every outcome is a next state (R70). -/
def step (s : State) : Host.Outcome State Fault Refusal :=
  match fetch config s with
  | .raised e s1 => finish (.raised e s1)
  | .ok w s1 =>
    match decodeWord config w with
    | .instr i => exec i s1
    | .error e => finish (.raised (errorOf e) s1)

/-- The state whose next step fetches and runs the instruction whose bits are `w`: its words stand at PC, or at address 0
with PC at `fromInt(0)` where they would not fit from PC on (log entry 11). -/
def State.withFetchWord (s : State) (nbits w : Nat) : State :=
  let ws := instructionWords config nbits w
  let p := toInt s.pc
  if p + ws.length ≤ config.N then s.placeWords p ws
  else ({ s with pc := fromInt 0 }).placeWords 0 ws

end Sys2Proof.Machine
end

