-- ==== Sys2Proof/Machine/HostOps.lean ====
section
/-! DEFINITION. The host's operations (`70_reset_and_hazards.md` R98 to R106): what the outside world can do to the core. -/

namespace Sys2Proof.Machine

/-! ## loadProgram -/

/-- The stores of `loadProgram` (R98): each line as a bit string at the next address, stopping at the first that fails (R99). -/
def storeLines (cfg : Config) (a : Nat) (lines : List Bits) (s : State) : Result Unit :=
  match lines with
  | [] => .ok () s
  | l :: ls => (memWrite cfg a (.bits l) s).bind fun _ s => storeLines cfg (a + 1) ls s

/-- `loadProgram(lines)` (R98, R99): PC becomes `fromInt(0)`, then the lines are stored from address 0; nothing is undone
when a line fails (decision D16). -/
def loadProgram (cfg : Config) (lines : List Bits) (s : State) : Result Unit :=
  (storeReg cfg .PC (.int 0) s).bind fun _ s => storeLines cfg 0 lines s

/-- A program line as a bit string; none where a character is neither `0` nor `1`. -/
def parseLine (cs : List Char) : Option Bits :=
  match cs with
  | [] => some []
  | c :: cs =>
    match parseLine cs with
    | none => none
    | some t => if c = '1' then some (true :: t) else if c = '0' then some (false :: t) else none

/-- Every line of a program; none where one of them does not parse. -/
def parseLines (lines : List (List Char)) : Option (List Bits) :=
  match lines with
  | [] => some []
  | l :: ls =>
    match parseLine l, parseLines ls with
    | some b, some bs => some (b :: bs)
    | _, _ => none

/-- `loadProgram` on the characters the host supplies: the interface refuses a line that is no bit string (R98, D13). -/
def loadText (cfg : Config) (lines : List (List Char)) (s : State) : Host.Outcome State Fault Refusal :=
  match parseLines lines with
  | some bs => finish (loadProgram cfg bs s)
  | none => .refused .nonBinaryLine

/-! ## Inspection -/

/-- What an inspecting read returns. -/
inductive Reading where
  | bits (s : Bits)
  | int (v : Nat)
  | error (e : ErrorKind)
deriving DecidableEq, Repr

/-- A cell's string, or its value where the host asks for an integer (R104, R105). -/
def Reading.of (asInteger : Bool) (b : Bits) : Reading :=
  if asInteger then .int (toInt b) else .bits b

/-- `readMemory(address, asInteger)` (R104). An address is any integer the host gives; one outside `[0, N)` is not found. -/
def readMemory (cfg : Config) (a : Int) (asInteger : Bool) (s : State) : Reading :=
  if 0 ≤ a ∧ a < cfg.N then .of asInteger (s.mem.read cfg a.toNat) else .error .addressNotFound

/-- The name of a register as the host spells it (R14). -/
def registerText : RegName → String
  | .AC => "AC"
  | .DR => "DR"
  | .CR => "CR"
  | .PC => "PC"
  | .IR => "IR"

/-- `readRegister(name, asInteger)` (R105). -/
def readRegister (cfg : Config) (name : String) (asInteger : Bool) (s : State) : Reading :=
  match cfg.regNames.find? fun r => registerText r = name with
  | some r => .of asInteger (s.reg r)
  | none => .error .registerNotFound

/-- A bit string as the host prints it; `ε` prints as nothing. -/
def bitsText (b : Bits) : String := String.ofList (b.map fun x => if x then '1' else '0')

/-- The lines of `dump()` (R103): every register in the order of the names, then every address in order; decision D18. -/
def dumpLines (cfg : Config) (s : State) : List (String × Bits) :=
  (cfg.regNames.map fun r => (registerText r, s.reg r)) ++
    (List.range cfg.N).map fun a => (Nat.repr a, s.mem.read cfg a)

/-- `dump()` as text (R103): each line a name or a decimal address, a colon and a space, and the cell's string. -/
def dump (cfg : Config) (s : State) : String :=
  (dumpLines cfg s).foldr (fun l t => l.1 ++ ": " ++ bitsText l.2 ++ "\n" ++ t) ""

/-! ## One operation at a time -/

/-- The operations the host has (R106); it has no other. -/
inductive HostOp where
  | step
  | loadProgram (lines : List Bits)
  | dump
  | readMemory (a : Int) (asInteger : Bool)
  | readRegister (name : String) (asInteger : Bool)
deriving DecidableEq, Repr

/-- What an operation returns to the host. -/
inductive Reply where
  | status (st : Status)
  | text (t : String)
  | reading (r : Reading)
deriving DecidableEq, Repr

/-- An operation that changes the core: its state, and the outcome it reports. -/
def Result.reply (x : Result Unit) : State × Reply :=
  (x.state.report x.status, .status x.status)

/-- One host operation, run to completion or to its first error (R106). The inspecting ones change no state (R103 to R105). -/
def invoke (cfg : Config) (op : HostOp) (s : State) : State × Reply :=
  match op with
  | .step => (cycle cfg s).reply
  | .loadProgram lines => (Sys2Proof.Machine.loadProgram cfg lines s).reply
  | .dump => (s, .text (Sys2Proof.Machine.dump cfg s))
  | .readMemory a asInteger => (s, .reading (Sys2Proof.Machine.readMemory cfg a asInteger s))
  | .readRegister name asInteger => (s, .reading (Sys2Proof.Machine.readRegister cfg name asInteger s))

/-- A sequence of host operations, in the one total order in which the host invokes them (R37): the state after them.
An operation may follow any outcome, an error included (R92). -/
def session (cfg : Config) (ops : List HostOp) (s : State) : State :=
  ops.foldl (fun s op => (invoke cfg op s).1) s

end Sys2Proof.Machine
end

