-- ==== Sys2Proof/Safety.lean ====
section
/-! DEFINITION. What counts as a state of the machine and as a safe run, in the terms the statements use. -/

namespace Sys2Proof.Machine

/-- The states the hardware has (R13, R28): every register at most `W` long, the memory in canonical form (so every cell
at most `W` long, at an address below `N`). -/
structure State.Inv (cfg : Config) (s : State) : Prop where
  reg_length : ∀ r, (s.reg r).length ≤ cfg.W
  mem_wf : s.mem.wf cfg

/-- Quiescent (R101): PC names no cell. -/
def State.Quiescent (cfg : Config) (s : State) : Prop := cfg.N ≤ toInt s.pc

/-- The words a step can fetch (R67): the cells from PC's to the last one, none where PC names no cell. -/
def State.image (cfg : Config) (s : State) : List Bits :=
  (List.range' (toInt s.pc) (cfg.N - toInt s.pc)).map fun a => s.mem.read cfg a

/-- The state after `n` fetches (R22, R24): PC moved on by `n`, IR the word last fetched; unchanged for none. -/
def State.fetched (cfg : Config) (n : Nat) (s : State) : State :=
  match n with
  | 0 => s
  | n + 1 => { s with ir := s.mem.read cfg (toInt s.pc + n), pc := fromInt (toInt s.pc + n + 1) }

/-- The operation completes: a next state that reports `OK`. -/
def Completes (x : Host.Outcome State Fault Refusal) : Prop := ∃ t, x = .next t ∧ t.status = .ok

/-- A safe run of `k` steps: each of them completes. -/
def SafeRun : Nat → State → Prop
  | 0, _ => True
  | k + 1, s => ∃ t, step s = .next t ∧ t.status = .ok ∧ SafeRun k t

end Sys2Proof.Machine
end

