-- ==== Sys2Proof/Certificates/Slice0/Obligations.lean ====
section
/-! DEFINITION. The statements for the provers. Unless one says otherwise it is about the canonical parameters (`config`);
those that quantify over `cfg` hold for every choice of the parameters of R5 that R6 admits, the OPEN power-on contents
among them. `s.Inv config` are the states the hardware has (R13, R28); `StepKeepsMachineStates` and
`ResetIsMachineState` say that the machine stays in them. -/

open Sys2Proof Sys2Proof.Machine

/-! ## Bit strings -/

/-- R8, whole: the positional value, `ε` denoting 0, and leading zeros not changing the value. -/
def Obligations.ToIntIsPositionalValue : Prop :=
  (∀ s : Bits, toInt s = ∑ i : Fin s.length, s[i].toNat * 2 ^ (s.length - 1 - i.val)) ∧
  toInt [] = 0 ∧
  ∀ (k : Nat) (s : Bits), toInt (List.replicate k false ++ s) = toInt s

/-- R9. The expansion of 0 as the one character `0` is the spec's decision D2 (log entry 6), no source's. -/
def Obligations.FromIntIsPaddedExpansion : Prop :=
  ∀ v k : Nat,
    toInt (fromInt v k) = v ∧
    (fromInt v k).length = max k (max 1 (if v = 0 then 0 else Nat.log2 v + 1)) ∧
    (v ≠ 0 → (fromInt v).head? = some true) ∧
    fromInt 0 = [false] ∧
    fromInt v k = List.replicate (k - (fromInt v).length) false ++ fromInt v ∧
    ∀ W, 0 < W → ((fromInt v).length ≤ W ↔ v < 2 ^ W)

/-- R10. That nothing is left of a string with no `1` is the spec's decision D5 (log entry 7), no source's. -/
def Obligations.StripDropsLeadingZeros : Prop :=
  (∀ (k : Nat) (t : Bits), strip0 (List.replicate k false ++ true :: t) = true :: t) ∧
  (∀ k : Nat, strip0 (List.replicate k false) = []) ∧
  ∀ s : Bits, toInt (strip0 s) = toInt s ∧ ∃ k, s = List.replicate k false ++ strip0 s

/-! ## Encoding -/

/-- One word of every row of R50, written out from the patterns of R48, decodes to the instruction it stands for.
The opcode numbers are the spec's decision D3 (log entry 3). -/
def Obligations.WrittenWordsDecode : Prop :=
  decodeWord config (natBits 32 0b00000000000000000000000000101010) =
    .instr (.moveRegisterConstant (natBits 3 0) (natBits 23 42)) ∧
  decodeWord config (natBits 32 0b00000100100000000000000000000111) =
    .instr (.moveRegisterMemory (natBits 3 1) (natBits 23 7)) ∧
  decodeWord config (natBits 32 0b00001000000001110000000000000011) =
    .instr (.moveMemoryConstant (natBits 10 7) (natBits 16 3)) ∧
  decodeWord config (natBits 32 0b00001100000000110000000000000101) =
    .instr (.moveMemoryMemory (natBits 10 3) (natBits 16 5)) ∧
  decodeWord config (natBits 32 0b00010000000001100000000000000011) =
    .instr (.moveMemoryRegister (natBits 10 6) (natBits 16 3)) ∧
  decodeWord config (natBits 32 0b00010101000000000000000000000001) =
    .instr (.addRegisterConstant (natBits 3 2) (natBits 23 1)) ∧
  decodeWord config (natBits 32 0b00011000100000000000000000000111) =
    .instr (.addRegisterMemory (natBits 3 1) (natBits 23 7)) ∧
  decodeWord config (natBits 32 0b00011100000001010000000000000000) =
    .instr (.addMemoryRegister (natBits 10 5) (natBits 16 0)) ∧
  decodeWord config (natBits 32 0b11111101000000000000000000000001) =
    .instr (.prefixWord (natBits 26 0b01000000000000000000000001))

/-- Every one-word instruction, a prefix word among them, is encoded in one word that decodes to it, whatever the
parameters: no bit of a field is dropped. -/
def Obligations.OneWordInstructionsRoundTrip : Prop :=
  ∀ cfg : Config, cfg.Valid → ∀ i : Instr, i.OneWord cfg →
    ∃ w, encode cfg i = [w] ∧ w.length = cfg.W ∧ decodeWord cfg w = .instr i

/-- Every well-formed operation, its second field of any length continuation gives it (R49), is encoded in words of
length `W`, no more than the memory has cells, which decode to it whatever follows them. -/
def Obligations.ContinuedInstructionsRoundTrip : Prop :=
  ∀ cfg : Config, cfg.Valid → ∀ i : Instr, i.WellFormed cfg → i.operation? ≠ none →
    (encode cfg i).length ≤ cfg.N ∧ (∀ w ∈ encode cfg i, w.length = cfg.W) ∧
    ∀ rest : List Bits, decode cfg (encode cfg i ++ rest) = .instr i rest

/-- A word that decodes is the encoding of the instruction it decodes to, so each word has one meaning. -/
def Obligations.DecodedWordIsItsEncoding : Prop :=
  ∀ cfg : Config, cfg.Valid → ∀ (w : Bits) (i : Instr), decodeWord cfg w = .instr i →
    i.OneWord cfg ∧ encode cfg i = [w]

/-- R52, R59: exactly the words of another length than 32 are malformed, and exactly the opcodes 8 to 62 undefined.
That the opcodes are numbered 0 to 7, and the kind of error, are the spec's decisions D3 and D4 (log entries 3 and 12). -/
def Obligations.WordsAreRejectedByName : Prop :=
  ∀ w : Bits,
    (decodeWord config w = .error .malformed ↔ w.length ≠ 32) ∧
    (∀ k, decodeWord config w = .error (.undefinedOpcode k) ↔
      w.length = 32 ∧ k = toInt (w.take 6) ∧ 8 ≤ k ∧ k ≤ 62) ∧
    ((∃ x, decodeWord config w = .instr (.prefixWord x)) ↔ w.length = 32 ∧ toInt (w.take 6) = 63)

/-! ## Registers and memory -/

/-- R18, whole, for registers and memory cells: what a successful store of a string or of a natural number leaves to be
read, and that every store elsewhere leaves it so: to another register, to another cell, to any cell for what a register
holds, and to any register for what a cell holds. -/
def Obligations.StoredValueIsRead : Prop :=
  ∀ (s : State) (b : Bits) (v : Nat), s.Inv config →
    (∀ r : RegName,
      (b.length ≤ 32 → ∃ t, storeReg config r (.bits b) s = .ok () t ∧ t.reg r = b) ∧
      (v < 2 ^ 32 → ∃ t, storeReg config r (.int v) s = .ok () t ∧ t.reg r = fromInt v ∧ toInt (t.reg r) = v) ∧
      (∀ (r' : RegName) (x : Value) (t : State), r' ≠ r → storeReg config r' x s = .ok () t → t.reg r = s.reg r) ∧
      ∀ (a' : Nat) (x : Value) (t : State), memWrite config a' x s = .ok () t → t.reg r = s.reg r) ∧
    (∀ a : Nat, a < 8 →
      (b.length ≤ 32 → ∃ t, memWrite config a (.bits b) s = .ok () t ∧ memRead config a t = .ok b t) ∧
      (v < 2 ^ 32 → ∃ t, memWrite config a (.int v) s = .ok () t ∧ memRead config a t = .ok (fromInt v) t) ∧
      (∀ (a' : Nat) (x : Value) (t : State), a' ≠ a → memWrite config a' x s = .ok () t →
        memRead config a t = .ok (s.mem.read config a) t) ∧
      ∀ (r' : RegName) (x : Value) (t : State), storeReg config r' x s = .ok () t →
        memRead config a t = .ok (s.mem.read config a) t)

/-- R30, whole: a read fails exactly outside `[0, N)`, returns the cell's string, and changes nothing. -/
def Obligations.MemReadReturnsTheCell : Prop :=
  ∀ (cfg : Config) (a : Nat) (s : State),
    (a < cfg.N → memRead cfg a s = .ok (s.mem.read cfg a) s) ∧
    (¬ a < cfg.N → memRead cfg a s = .raised .addressNotFound s)

/-- R17, R31: which stores fail and with what, and that a failing store changes nothing. Where both checks of a memory
store fail the address is reported: the spec's decision D19 (log entry 13). -/
def Obligations.FailingStoreChangesNothing : Prop :=
  ∀ (s : State) (x : Value),
    (∀ r : RegName, 32 < x.normalize.length → storeReg config r x s = .raised .valueTooLong s) ∧
    (∀ a : Nat, 8 ≤ a → memWrite config a x s = .raised .addressNotFound s) ∧
    (∀ a : Nat, a < 8 → 32 < x.normalize.length → memWrite config a x s = .raised .valueTooLong s) ∧
    ∀ v : Nat, (32 < (Value.int v).normalize.length ↔ 2 ^ 32 ≤ v)

/-! ## The operations: what each does where it completes -/

/-- R71: the register gets the constant's integer value, stored with no leading zeros. -/
def Obligations.MoveRegisterConstantCompletes : Prop :=
  ∀ (r c : Bits) (n : RegName) (s : State),
    config.regNames[toInt r]? = some n → toInt c < 2 ^ 32 →
    ∃ t, exec (.moveRegisterConstant r c) s = .next t ∧ t.status = .ok ∧
      t.reg n = fromInt (toInt c) ∧ (∀ m, m ≠ n → t.reg m = s.reg m) ∧ t.mem = s.mem

/-- R72: the register gets the cell's bit string. That it is copied raw is the spec's decision D6 (log entry 14). -/
def Obligations.MoveRegisterMemoryCompletes : Prop :=
  ∀ (r a : Bits) (n : RegName) (s : State), s.Inv config →
    config.regNames[toInt r]? = some n → toInt a < 8 →
    ∃ t, exec (.moveRegisterMemory r a) s = .next t ∧ t.status = .ok ∧
      t.reg n = s.mem.read config (toInt a) ∧ (∀ m, m ≠ n → t.reg m = s.reg m) ∧ t.mem = s.mem

/-- R73: the cell gets the constant's own bit string, leading zeros kept. -/
def Obligations.MoveMemoryConstantCompletes : Prop :=
  ∀ (a c : Bits) (s : State), s.Inv config → toInt a < 8 → c.length ≤ 32 →
    ∃ t, exec (.moveMemoryConstant a c) s = .next t ∧ t.status = .ok ∧ (∀ m, t.reg m = s.reg m) ∧
      ∀ b, t.mem.read config b = if b = toInt a then c else s.mem.read config b

/-- R74: the destination cell gets the source cell's bit string. That the first sub-field is the destination, and the
copy raw, are the spec's decisions D7 and D6 (log entries 15 and 14). -/
def Obligations.MoveMemoryMemoryCompletes : Prop :=
  ∀ (d src : Bits) (s : State), s.Inv config → toInt d < 8 → toInt src < 8 →
    ∃ t, exec (.moveMemoryMemory d src) s = .next t ∧ t.status = .ok ∧ (∀ m, t.reg m = s.reg m) ∧
      ∀ b, t.mem.read config b = if b = toInt d then s.mem.read config (toInt src) else s.mem.read config b

/-- R75: the cell gets the register's bit string, raw (the spec's decision D6, log entry 14). -/
def Obligations.MoveMemoryRegisterCompletes : Prop :=
  ∀ (a r : Bits) (n : RegName) (s : State), s.Inv config → toInt a < 8 → config.regNames[toInt r]? = some n →
    ∃ t, exec (.moveMemoryRegister a r) s = .next t ∧ t.status = .ok ∧ (∀ m, t.reg m = s.reg m) ∧
      ∀ b, t.mem.read config b = if b = toInt a then s.reg n else s.mem.read config b

/-- R76, R77: the register gets the exact sum of its value and the constant's, where the sum is below `2^32`. -/
def Obligations.AddRegisterConstantCompletes : Prop :=
  ∀ (r c : Bits) (n : RegName) (s : State),
    config.regNames[toInt r]? = some n → toInt (s.reg n) + toInt c < 2 ^ 32 →
    ∃ t, exec (.addRegisterConstant r c) s = .next t ∧ t.status = .ok ∧
      t.reg n = fromInt (toInt (s.reg n) + toInt c) ∧ (∀ m, m ≠ n → t.reg m = s.reg m) ∧ t.mem = s.mem

/-- R76, R78: the register gets the exact sum of the cell's value and its own, where the sum is below `2^32`. -/
def Obligations.AddRegisterMemoryCompletes : Prop :=
  ∀ (r a : Bits) (n : RegName) (s : State),
    config.regNames[toInt r]? = some n → toInt a < 8 →
    toInt (s.mem.read config (toInt a)) + toInt (s.reg n) < 2 ^ 32 →
    ∃ t, exec (.addRegisterMemory r a) s = .next t ∧ t.status = .ok ∧
      t.reg n = fromInt (toInt (s.mem.read config (toInt a)) + toInt (s.reg n)) ∧
      (∀ m, m ≠ n → t.reg m = s.reg m) ∧ t.mem = s.mem

/-- R76, R79: the cell gets the exact sum of its value and the register's, where the sum is below `2^32`. -/
def Obligations.AddMemoryRegisterCompletes : Prop :=
  ∀ (a r : Bits) (n : RegName) (s : State), s.Inv config →
    toInt a < 8 → config.regNames[toInt r]? = some n →
    toInt (s.mem.read config (toInt a)) + toInt (s.reg n) < 2 ^ 32 →
    ∃ t, exec (.addMemoryRegister a r) s = .next t ∧ t.status = .ok ∧ (∀ m, t.reg m = s.reg m) ∧
      ∀ b, t.mem.read config b =
        if b = toInt a then fromInt (toInt (s.mem.read config (toInt a)) + toInt (s.reg n)) else s.mem.read config b

/-! ## The continuation prefix -/

/-- R69, R49: where the words at PC make an instruction, a prefix word runs that instruction's operation on the combined
field, after the fetches, and its first sub-field comes from the prefix word. -/
def Obligations.PrefixWordRunsTheExtendedInstruction : Prop :=
  ∀ (x : Bits) (s : State) (i : Instr) (rest : List Bits), s.Inv config → x.length = 26 →
    decode config (s.image config) = .instr i rest →
    exec (.prefixWord x) s = exec (i.extend config x) (s.fetched config ((s.image config).length - rest.length)) ∧
    (i.extend config x).operation? = i.operation? ∧
    (i.extend config x).field = x ++ strip0 i.field ∧
    (i.extend config x).firstField = x.take ((i.extend config x).firstWidth config)

/-- R69, R71: a prefix word before a `move-register-constant` word completes, with the register taken from the prefix word
and the constant from what is left of the combined field. -/
def Obligations.PrefixWordCompletesRegisterConstant : Prop :=
  ∀ (x : Bits) (s : State) (r c : Bits) (n : RegName), s.Inv config → x.length = 26 → toInt s.pc < 8 →
    decodeWord config (s.mem.read config (toInt s.pc)) = .instr (.moveRegisterConstant r c) →
    config.regNames[toInt (x.take 3)]? = some n →
    toInt (x.drop 3 ++ strip0 (r ++ c)) < 2 ^ 32 →
    ∃ t, exec (.prefixWord x) s = .next t ∧ t.status = .ok ∧
      t.reg n = fromInt (toInt (x.drop 3 ++ strip0 (r ++ c))) ∧
      (n ≠ .PC → t.pc = fromInt (toInt s.pc + 1)) ∧
      (n ≠ .IR → t.ir = s.mem.read config (toInt s.pc)) ∧
      (∀ m, m ≠ n → m ≠ .PC → m ≠ .IR → t.reg m = s.reg m) ∧ t.mem = s.mem

/-- R69, R73: a prefix word before a `move-memory-constant` word completes and stores up to a whole word of raw bits, which
is how a program writes an executable word. -/
def Obligations.PrefixWordCompletesMemoryConstant : Prop :=
  ∀ (x : Bits) (s : State) (a c : Bits), s.Inv config → x.length = 26 → toInt s.pc < 8 →
    decodeWord config (s.mem.read config (toInt s.pc)) = .instr (.moveMemoryConstant a c) →
    toInt (x.take 10) < 8 → (strip0 (a ++ c)).length ≤ 16 →
    ∃ t, exec (.prefixWord x) s = .next t ∧ t.status = .ok ∧
      t.pc = fromInt (toInt s.pc + 1) ∧ t.ir = s.mem.read config (toInt s.pc) ∧
      (∀ m, m ≠ .PC → m ≠ .IR → t.reg m = s.reg m) ∧
      ∀ b, t.mem.read config b =
        if b = toInt (x.take 10) then x.drop 10 ++ strip0 (a ++ c) else s.mem.read config b

/-- R64: `analyze` is the recursion the spec writes, with no bound in sight: the length check, the marker's branch with
its fetch and the combined field, and the plain split. Its opcode is never the marker. -/
def Obligations.AnalyzeIsTheSpecsRecursion : Prop :=
  ∀ (w : Bits) (s : State),
    (w.length ≠ 32 → analyze config 8 w s = .raised .malformedInstruction s) ∧
    (w.length = 32 → toInt (w.take 6) ≠ 63 → analyze config 8 w s = .ok (toInt (w.take 6), w.drop 6) s) ∧
    (w.length = 32 → toInt (w.take 6) = 63 →
      analyze config 8 w s =
        (fetch config s).bind fun w2 s2 =>
        (analyze config 8 w2 s2).bind fun r s3 =>
        .ok (r.1, w.drop 6 ++ strip0 r.2) s3) ∧
    ∀ op F t, analyze config 8 w s = .ok (op, F) t → op ≠ 63

/-- R67: a chain is bounded by the memory. `analyze` after the first fetch leaves PC at most at `N`, and its field has at
least one word's operand bits and at most those of the words fetched, the first among them. -/
def Obligations.CombinedFieldIsBounded : Prop :=
  ∀ cfg : Config, cfg.Valid → ∀ (w : Bits) (s t : State) (op : Nat) (F : Bits),
    s.Inv cfg → toInt s.pc ≤ cfg.N → analyze cfg cfg.N w s = .ok (op, F) t →
    toInt s.pc ≤ toInt t.pc ∧ toInt t.pc ≤ cfg.N ∧ cfg.operandWidth ≤ F.length ∧
    F.length ≤ cfg.operandWidth * (toInt t.pc - toInt s.pc + 1)

/-! ## Frames and errors -/

/-- R26, R71, R72, R77, R78: the register operations change no register but the one their field names, and no cell;
whatever they report. -/
def Obligations.RegisterOperationsFrame : Prop :=
  ∀ (r f : Bits) (s t : State),
    ∀ i ∈ [Instr.moveRegisterConstant r f, .moveRegisterMemory r f, .addRegisterConstant r f, .addRegisterMemory r f],
    exec i s = .next t →
    (∀ m, config.regNames[toInt r]? ≠ some m → t.reg m = s.reg m) ∧
    ∀ b, t.mem.read config b = s.mem.read config b

/-- R26, R73, R74, R75, R79: the memory operations change no register, and no cell but the one at the address their first
sub-field gives; whatever they report. That move-memory-memory's first sub-field is its destination is the spec's decision
D7 (log entry 15). -/
def Obligations.MemoryOperationsFrame : Prop :=
  ∀ (a f : Bits) (s t : State), s.Inv config →
    ∀ i ∈ [Instr.moveMemoryConstant a f, .moveMemoryMemory a f, .moveMemoryRegister a f, .addMemoryRegister a f],
    exec i s = .next t →
    (∀ m, t.reg m = s.reg m) ∧ ∀ b, b ≠ address a → t.mem.read config b = s.mem.read config b

/-- R69: a prefix word changes, beside PC and IR, at most the register or the cell that its own first bits name, and not
both; whatever words follow it and whatever it reports. That these bits name the destination where a move-memory-memory
follows is the spec's decision D7 (log entry 15). -/
def Obligations.PrefixWordFrame : Prop :=
  ∀ (x : Bits) (s t : State), s.Inv config → x.length = 26 → exec (.prefixWord x) s = .next t →
    (∀ m, m ≠ .PC → m ≠ .IR → config.regNames[toInt (x.take 3)]? ≠ some m → t.reg m = s.reg m) ∧
    (∀ b, b ≠ address (x.take 10) → t.mem.read config b = s.mem.read config b) ∧
    ((∀ m, m ≠ .PC → m ≠ .IR → t.reg m = s.reg m) ∨ ∀ b, t.mem.read config b = s.mem.read config b)

/-- R87, R88 (last row): an operation that reports an error has changed nothing itself. -/
def Obligations.FailingOperationChangesNothing : Prop :=
  ∀ (i : Instr) (s t : State), i.operation? ≠ none → exec i s = .next t → t.status ≠ .ok →
    t = s.report t.status

/-- R71 to R79, R82 to R84, R90: what each operation reports, and so exactly when it completes. The order of the checks is
the spec's decision D9 (log entry 13). -/
def Obligations.OperationsReportTheirFirstError : Prop :=
  ∀ (f g : Bits) (s : State), s.Inv config →
    let reg (x : Bits) : Option RegName := config.regNames[toInt x]?
    let val (x : Bits) : Nat := ((reg x).map fun n => toInt (s.reg n)).getD 0
    let cell (x : Bits) : Nat := toInt (s.mem.read config (toInt x))
    let noReg := Status.error .registerNotFound
    let noAddr := Status.error .addressNotFound
    let tooLong := Status.error .valueTooLong
    let reports (i : Instr) (st : Status) : Prop := ∃ t, exec i s = .next t ∧ t.status = st
    reports (.moveRegisterConstant f g)
      (if reg f = none then noReg else if 2 ^ 32 ≤ toInt g then tooLong else .ok) ∧
    reports (.moveRegisterMemory f g)
      (if reg f = none then noReg else if 8 ≤ toInt g then noAddr else .ok) ∧
    reports (.moveMemoryConstant f g)
      (if 8 ≤ toInt f then noAddr else if 32 < g.length then tooLong else .ok) ∧
    reports (.moveMemoryMemory f g)
      (if 8 ≤ toInt f then noAddr else if 8 ≤ toInt g then noAddr else .ok) ∧
    reports (.moveMemoryRegister f g)
      (if 8 ≤ toInt f then noAddr else if reg g = none then noReg else .ok) ∧
    reports (.addRegisterConstant f g)
      (if reg f = none then noReg else if 2 ^ 32 ≤ val f + toInt g then tooLong else .ok) ∧
    reports (.addRegisterMemory f g)
      (if reg f = none then noReg else if 8 ≤ toInt g then noAddr
       else if 2 ^ 32 ≤ cell g + val f then tooLong else .ok) ∧
    reports (.addMemoryRegister f g)
      (if 8 ≤ toInt f then noAddr else if reg g = none then noReg
       else if 2 ^ 32 ≤ cell f + val g then tooLong else .ok)

/-! ## The step -/

/-- When the word at PC decodes to an instruction, a step is that instruction at the state after the fetch: IR the word, PC
one on. -/
def Obligations.StepRunsTheDecodedInstruction : Prop :=
  ∀ (s : State) (i : Instr), s.Inv config → toInt s.pc < 8 →
    decodeWord config (s.mem.read config (toInt s.pc)) = .instr i →
    step s = exec i { s with ir := s.mem.read config (toInt s.pc), pc := fromInt (toInt s.pc + 1) }

/-- R65, whole: a step is one fetch, then `analyze` of the fetched word, then `Execute` of what it answers, ending at the
first error with that error reported and the state the failing sub-step left. Of every state. -/
def Obligations.StepIsFetchAnalyzeExecute : Prop :=
  ∀ s : State, step s =
    match (fetch config s).bind fun w s1 => (analyze config 8 w s1).bind fun r s2 => execute config r.1 r.2 s2 with
    | .ok _ t => .next (t.report .ok)
    | .raised e t => .next (t.report (.error e))

/-- R22, R24, R58 to R66, R88 (every row of its table): a step is what the decoder makes of the words from PC on. An
instruction runs after exactly the fetches of its words; words that make none are fetched up to the one that fails, PC and
IR say which, the error is reported by its kind, and nothing else changes. That an unassigned opcode reports
`UndefinedOpcode` is the spec's decision D4 (log entry 12). -/
def Obligations.StepRunsTheMemoryImage : Prop :=
  ∀ s : State, s.Inv config →
    (∀ i rest, decode config (s.image config) = .instr i rest →
      step s = exec i (s.fetched config ((s.image config).length - rest.length))) ∧
    (∀ e rest, decode config (s.image config) = .error e rest →
      step s = .next ((s.fetched config ((s.image config).length - rest.length)).report
        (.error (match e with
          | .malformed => .malformedInstruction
          | .undefinedOpcode _ => .undefinedOpcode
          | .wordsEnd => .addressNotFound))))

/-- R12, R13, R28: every step of a state the hardware has ends in a state the hardware has: registers and cells at most 32
characters, cells only at addresses below 8, the memory in its one canonical form. -/
def Obligations.StepKeepsMachineStates : Prop :=
  ∀ s t : State, s.Inv config → step s = .next t → t.Inv config

/-- The state after reset is a state the hardware has, and it is the power-on state at the values this model chose for the
OPEN contents (R97, D10; log entries 4 and 5): every register the one character `0`, no cell listed. -/
def Obligations.ResetIsMachineState : Prop :=
  State.reset.Inv config ∧ (∀ r, State.reset.reg r = [false]) ∧ State.reset.mem = []

/-- R101: in a quiescent state a step reports `AddressNotFound` and changes nothing. -/
def Obligations.QuiescentStepChangesNothing : Prop :=
  ∀ s : State, s.Quiescent config → step s = .next (s.report (.error .addressNotFound))

/-- R101: the halt idiom completes and leaves a quiescent state. That it is the word `0x01800008` rests on the spec's
decisions D1, D3, D8 and D17 (log entries 2, 3, 16 and 17). -/
def Obligations.HaltIdiomQuiesces : Prop :=
  ∀ s : State, s.Inv config → toInt s.pc < 8 → s.mem.read config (toInt s.pc) = natBits 32 0x01800008 →
    ∃ t, step s = .next t ∧ t.status = .ok ∧ t.Quiescent config ∧ t.pc = fromInt 8 ∧ t.ir = natBits 32 0x01800008 ∧
      t.ac = s.ac ∧ t.dr = s.dr ∧ t.cr = s.cr ∧ t.mem = s.mem

/-- R96: no record of an outcome bears on what comes after. The model's own `status` field is read by no step. -/
def Obligations.StepReadsNoStatus : Prop :=
  ∀ (s : State) (st : Status), step (s.report st) = step s

/-- R39: a fetch sees the store of the step before. A cell holding a word, copied over the cell at PC, is the instruction
the next step runs. That the first sub-field names the cell overwritten, and that the copy is the same word, are the spec's
decisions D7 and D6 (log entries 15 and 14). -/
def Obligations.NextStepRunsTheStoredWord : Prop :=
  ∀ (s t : State) (d src : Bits) (j : Instr), s.Inv config → toInt s.pc < 8 → toInt d = toInt s.pc → toInt src < 8 →
    decodeWord config (s.mem.read config (toInt src)) = .instr j →
    exec (.moveMemoryMemory d src) s = .next t →
    step t = exec j { t with ir := s.mem.read config (toInt src), pc := fromInt (toInt s.pc + 1) }

/-- R21, R71, R72, R77, R78, R108: each of the four operations that can name PC decides what the next step fetches: the
address is the constant, the value of the cell, PC plus the constant, or PC plus the value of the cell, where PC is the
address after the operation's own word. That register operands may name PC is the spec's decision D8 (log entry 16). -/
def Obligations.WritingPcJumps : Prop :=
  ∀ (s t : State) (r f : Bits) (j : Instr), s.Inv config → config.regNames[toInt r]? = some .PC →
    let cell := toInt (s.mem.read config (toInt f))
    let jumps (i : Instr) (p : Nat) : Prop :=
      p < 8 → decodeWord config (s.mem.read config p) = .instr j → exec i s = .next t →
        step t = exec j { t with ir := s.mem.read config p, pc := fromInt (p + 1) }
    jumps (.moveRegisterConstant r f) (toInt f) ∧
    (toInt f < 8 → jumps (.moveRegisterMemory r f) cell) ∧
    jumps (.addRegisterConstant r f) (toInt s.pc + toInt f) ∧
    (toInt f < 8 → jumps (.addRegisterMemory r f) (toInt s.pc + cell))

/-- R108, R109: during execute PC is one past the last fetched word and IR is that word. A one-word step that stores PC or
IR to a cell stores those. That the string is copied raw is the spec's decision D6 (log entry 14). -/
def Obligations.ExecutionSeesAdvancedPcAndFetchedWord : Prop :=
  ∀ (s : State) (a r : Bits) (n : RegName), s.Inv config → toInt s.pc < 8 →
    decodeWord config (s.mem.read config (toInt s.pc)) = .instr (.moveMemoryRegister a r) →
    toInt a < 8 → config.regNames[toInt r]? = some n →
    ∃ t, step s = .next t ∧ t.status = .ok ∧
      t.mem.read config (toInt a) =
        match n with
        | .PC => fromInt (toInt s.pc + 1)
        | .IR => s.mem.read config (toInt s.pc)
        | m => s.reg m

/-! ## The host's operations, for every choice of parameters -/

/-- R98: a program that fits is loaded line by line from address 0, PC becomes `fromInt(0)`, and nothing else changes. -/
def Obligations.LoadProgramStoresTheLines : Prop :=
  ∀ cfg : Config, cfg.Valid → ∀ (lines : List Bits) (s : State), s.Inv cfg →
    lines.length ≤ cfg.N → (∀ l ∈ lines, l.length ≤ cfg.W) →
    ∃ t, loadProgram cfg lines s = .ok () t ∧ t.pc = fromInt 0 ∧
      (∀ r, r ≠ .PC → t.reg r = s.reg r) ∧
      ∀ b, t.mem.read cfg b = if h : b < lines.length then lines[b] else s.mem.read cfg b

/-- R99: a load stops at the first line that fails, past the last cell or longer than a word, with that error; the lines
before it stay stored, PC is `fromInt(0)`, and nothing else changes. That nothing is undone is the spec's decision D16
(log entry 18), and that a line which is both past the last cell and too long reports the address is D19 (log entry 13). -/
def Obligations.LoadProgramStopsAtTheFirstFailure : Prop :=
  ∀ cfg : Config, cfg.Valid → ∀ (before : List Bits) (line : Bits) (later : List Bits) (s : State), s.Inv cfg →
    before.length ≤ cfg.N → (∀ l ∈ before, l.length ≤ cfg.W) →
    (before.length = cfg.N ∨ cfg.W < line.length) →
    ∃ t, loadProgram cfg (before ++ line :: later) s =
        .raised (if before.length = cfg.N then .addressNotFound else .valueTooLong) t ∧
      t.pc = fromInt 0 ∧ (∀ r, r ≠ .PC → t.reg r = s.reg r) ∧
      ∀ b, t.mem.read cfg b = if h : b < before.length then before[b] else s.mem.read cfg b

/-- R98: the interface refuses exactly the programs in which some character is neither `0` nor `1`, and loads every other
as the bit strings its characters spell (the spec's decision D13, log entry 19). -/
def Obligations.LoadTextRefusesOtherCharacters : Prop :=
  ∀ (lines : List (List Char)) (s : State),
    (loadText config lines s = .refused .nonBinaryLine ↔ ∃ l ∈ lines, ∃ c ∈ l, c ≠ '0' ∧ c ≠ '1') ∧
    ∀ bs : List Bits,
      loadText config (bs.map fun b => b.map fun x => if x then '1' else '0') s = finish (loadProgram config bs s)

/-- R103 to R105: what the inspecting operations answer, and that they change no state. Invoked by the host, each replies
with what `readMemory`, `readRegister` and `dump` give and leaves the state as it was, whatever it is asked; what those
give is said for every address and every name; and the text of `dump` is said character by character, one line a register
and a cell. The text of `dump`, and that the reads change no state, are the spec's decisions D18 and D22 (log entry 20). -/
def Obligations.InspectionChangesNothing : Prop :=
  ∀ (s : State),
    let registers := [("AC", s.ac), ("DR", s.dr), ("CR", s.cr), ("PC", s.pc), ("IR", s.ir)]
    let cells :=
      [("0", s.mem.read config 0), ("1", s.mem.read config 1), ("2", s.mem.read config 2), ("3", s.mem.read config 3),
       ("4", s.mem.read config 4), ("5", s.mem.read config 5), ("6", s.mem.read config 6), ("7", s.mem.read config 7)]
    (∀ (a : Int) (asInteger : Bool),
      invoke config (.readMemory a asInteger) s = (s, .reading (readMemory config a asInteger s))) ∧
    (∀ (name : String) (asInteger : Bool),
      invoke config (.readRegister name asInteger) s = (s, .reading (readRegister config name asInteger s))) ∧
    invoke config .dump s = (s, .text (dump config s)) ∧
    (∀ a : Nat, a < 8 →
      readMemory config a false s = .bits (s.mem.read config a) ∧
      readMemory config a true s = .int (toInt (s.mem.read config a))) ∧
    (∀ a : Int, a < 0 ∨ 8 ≤ a → ∀ asInteger, readMemory config a asInteger s = .error .addressNotFound) ∧
    (∀ (name : String) (b : Bits), (name, b) ∈ registers →
      readRegister config name false s = .bits b ∧ readRegister config name true s = .int (toInt b)) ∧
    (∀ name : String, name ∉ ["AC", "DR", "CR", "PC", "IR"] → ∀ asInteger,
      readRegister config name asInteger s = .error .registerNotFound) ∧
    (dump config s).toList = (registers ++ cells).flatMap fun line =>
      line.1.toList ++ [':', ' '] ++ line.2.map (fun x => if x then '1' else '0') ++ ['\n']

/-- R37, R97, R106: for every choice of the parameters, the OPEN power-on contents among them, every sequence of host
operations, whatever they report, keeps the core in a state the hardware has, from power-on and from any such state. -/
def Obligations.EverySessionKeepsMachineStates : Prop :=
  ∀ cfg : Config, cfg.Valid →
    (State.powerOn cfg).Inv cfg ∧
    ∀ (ops : List HostOp) (s : State), s.Inv cfg → (session cfg ops s).Inv cfg

/-- R97: what the core holds at power-on is `RESET_REG` and `RESET_MEM`, and no value of theirs is excluded: every state
the hardware has that reports `OK` is, register by register and cell by cell, the power-on state of some valid choice of them. -/
def Obligations.EveryMachineStateIsAPowerOnState : Prop :=
  (∀ (cfg : Config) (r : RegName), (State.powerOn cfg).reg r = cfg.resetReg r) ∧
  (∀ (cfg : Config) (a : Nat), (State.powerOn cfg).mem.read cfg a = cfg.resetMem a) ∧
  ∀ s : State, s.Inv config →
    ∃ cfg : Config, cfg.Valid ∧ cfg = { config with resetReg := cfg.resetReg, resetMem := cfg.resetMem } ∧
      (∀ r, (State.powerOn cfg).reg r = s.reg r) ∧
      ∀ a, (State.powerOn cfg).mem.read cfg a = s.mem.read config a

/-- The interface to the host's word tests (the model's own, log entry 11): with a table word placed, the step after reset
runs the instruction the decoder reads from it, with IR that word and PC at 1. That the word is placed in cell 0 and PC is 1
rests on the reset value of PC, the model's choice (log entry 4). -/
def Obligations.PlacedWordIsTheFirstInstruction : Prop :=
  ∀ (w : Nat) (i : Instr), w < 2 ^ 32 → decodeTableWord 32 w = some i →
    ∃ t, step (State.reset.withFetchWord 32 w) = exec i t ∧ t.ir = natBits 32 w ∧ t.pc = fromInt 1 ∧
      (∀ r, r ≠ .PC → r ≠ .IR → t.reg r = State.reset.reg r) ∧ t.mem.read config 0 = natBits 32 w
end

