-- ==== Sys2Proof/Laws/BitWord.lean ====
section
/-! SUPPORT. What the BitWord conversions do: the value and the length of every string they make. -/

namespace Sys2Proof

/-! ## toInt -/

@[simp] theorem toInt_nil : toInt [] = 0 := rfl

theorem foldl_toInt (s : Bits) (n : Nat) :
    s.foldl (fun n b => 2 * n + b.toNat) n = n * 2 ^ s.length + toInt s := by
  induction s generalizing n with
  | nil => simp
  | cons b t ih =>
    have h1 := ih (2 * n + b.toNat)
    have h2 := ih b.toNat
    simp only [toInt, List.foldl_cons, List.length_cons, Nat.mul_zero, Nat.zero_add] at *
    rw [h1, h2]; ring

@[simp] theorem toInt_cons (b : Bool) (t : Bits) : toInt (b :: t) = b.toNat * 2 ^ t.length + toInt t := by
  simpa [toInt] using foldl_toInt t b.toNat

theorem toInt_append (s t : Bits) : toInt (s ++ t) = toInt s * 2 ^ t.length + toInt t := by
  unfold toInt; rw [List.foldl_append, foldl_toInt]; rfl

theorem toInt_lt (s : Bits) : toInt s < 2 ^ s.length := by
  induction s with
  | nil => simp
  | cons b t ih => cases b <;> simp [pow_succ] <;> omega

/-- Leading zeros do not change the value (R8). -/
@[simp] theorem toInt_zeros_append (k : Nat) (s : Bits) : toInt (List.replicate k false ++ s) = toInt s := by
  induction k with
  | zero => rfl
  | succ k ih => simp only [List.replicate_succ, List.cons_append, toInt_cons, ih]; simp

/-! ## natBits, padLeft, fromInt -/

@[simp] theorem natBits_length (k v : Nat) : (natBits k v).length = k := by
  induction k with
  | zero => rfl
  | succ k ih => simp [natBits, ih]

theorem toInt_natBits (k v : Nat) : toInt (natBits k v) = v % 2 ^ k := by
  induction k with
  | zero => simp [natBits, Nat.mod_one]
  | succ k ih => rw [natBits, toInt_cons, ih, natBits_length, Nat.mod_pow_succ, Nat.toNat_testBit]; ring

/-- A string is the low bits of its own value. -/
theorem natBits_toInt (s : Bits) : natBits s.length (toInt s) = s := by
  induction s with
  | nil => rfl
  | cons b t ih =>
    have hlow : ∀ k, k ≤ t.length → natBits k (b.toNat * 2 ^ t.length + toInt t) = natBits k (toInt t) := by
      intro k hk
      induction k with
      | zero => rfl
      | succ k ihk =>
        rw [natBits, natBits, ihk (by omega), Nat.mul_comm, Nat.testBit_two_pow_mul_add _ (toInt_lt t), if_pos (by omega)]
    rw [List.length_cons, natBits, toInt_cons, hlow _ le_rfl, ih, Nat.mul_comm,
      Nat.testBit_two_pow_mul_add _ (toInt_lt t)]
    cases b <;> simp

/-- Two strings of one length with one value are the same string. -/
theorem toInt_injective {s t : Bits} (hl : s.length = t.length) (hv : toInt s = toInt t) : s = t := by
  rw [← natBits_toInt s, ← natBits_toInt t, hl, hv]

@[simp] theorem toInt_padLeft (k : Nat) (s : Bits) : toInt (padLeft k s) = toInt s := by simp [padLeft]

theorem padLeft_length (k : Nat) (s : Bits) : (padLeft k s).length = max k s.length := by
  simp [padLeft]; omega

@[simp] theorem expansion_length (v : Nat) : (expansion v).length = Nat.log2 v + 1 := by simp [expansion]

@[simp] theorem toInt_expansion (v : Nat) : toInt (expansion v) = v := by
  rw [expansion, toInt_natBits, Nat.mod_eq_of_lt Nat.lt_log2_self]

@[simp] theorem toInt_fromInt (v k : Nat) : toInt (fromInt v k) = v := by simp [fromInt]

theorem fromInt_length (v k : Nat) : (fromInt v k).length = max k (Nat.log2 v + 1) := by
  simp [fromInt, padLeft_length]

/-- `len(fromInt(v)) ≤ W` exactly when `v < 2^W` (R9), for `W` at least 1. -/
theorem fromInt_length_le_iff {v W : Nat} (hW : 0 < W) : (fromInt v).length ≤ W ↔ v < 2 ^ W := by
  rw [fromInt_length]
  rcases Nat.eq_zero_or_pos v with rfl | hv
  · simp; omega
  · rw [← Nat.log2_lt (by omega)]; omega

/-- Unpadded, only zero has a leading `0` (R9, D2). -/
theorem expansion_head (v : Nat) : (expansion v).head? = some (decide (v ≠ 0)) := by
  rcases Nat.eq_zero_or_pos v with rfl | hv
  · rfl
  · simp [expansion, natBits, Nat.testBit_log2, hv.ne']

/-! ## strip0 -/

@[simp] theorem strip0_nil : strip0 [] = [] := rfl
@[simp] theorem strip0_true (t : Bits) : strip0 (true :: t) = true :: t := rfl
@[simp] theorem strip0_false (t : Bits) : strip0 (false :: t) = strip0 t := rfl

@[simp] theorem strip0_zeros_append (k : Nat) (s : Bits) : strip0 (List.replicate k false ++ s) = strip0 s := by
  induction k with
  | zero => rfl
  | succ k ih => simpa [List.replicate_succ] using ih

@[simp] theorem strip0_padLeft (k : Nat) (s : Bits) : strip0 (padLeft k s) = strip0 s := by simp [padLeft]

/-- A string is zeros and then its stripped form. -/
theorem strip0_spec (s : Bits) : s = List.replicate (s.length - (strip0 s).length) false ++ strip0 s := by
  induction s with
  | nil => rfl
  | cons b t ih =>
    cases b with
    | true => simp
    | false =>
      have hle : (strip0 t).length ≤ t.length := by
        conv_rhs => rw [ih]
        simp
      rw [strip0_false, List.length_cons, Nat.succ_sub hle, List.replicate_succ, List.cons_append, ← ih]

theorem strip0_length_le (s : Bits) : (strip0 s).length ≤ s.length := by
  conv_rhs => rw [strip0_spec s]
  simp

@[simp] theorem toInt_strip0 (s : Bits) : toInt (strip0 s) = toInt s := by
  conv_rhs => rw [strip0_spec s]
  simp

@[simp] theorem strip0_strip0 (s : Bits) : strip0 (strip0 s) = strip0 s := by
  conv_rhs => rw [strip0_spec s]
  simp

/-- What is stripped is empty or begins with `1`. -/
theorem strip0_head (s : Bits) : strip0 s = [] ∨ ∃ t, strip0 s = true :: t := by
  induction s with
  | nil => exact .inl rfl
  | cons b t ih => cases b <;> simp [ih]

theorem strip0_append_of_head {s : Bits} (h : ∃ t, s = true :: t) (u : Bits) : strip0 (s ++ u) = s ++ u := by
  obtain ⟨t, rfl⟩ := h; rfl

/-! ## pieces -/

theorem units_flatten (s : Bits) : (units s).flatten = strip0 s := by
  have hdrop : ∀ t : Bits, t.takeWhile (! ·) ++ strip0 t = t := by
    intro t
    induction t with
    | nil => rfl
    | cons b t ih => cases b <;> simp [ih]
  induction s with
  | nil => rfl
  | cons b t ih => cases b <;> simp [units, ih, hdrop]

theorem units_head (s : Bits) : ∀ u ∈ units s, ∃ t, u = true :: t := by
  induction s with
  | nil => simp [units]
  | cons b t ih => cases b <;> simpa [units] using ih

theorem glue_flatten (k : Nat) (u : Bits) (ps : List Bits) : (glue k u ps).flatten = u ++ ps.flatten := by
  cases ps <;> simp only [glue]
  · simp
  · split <;> simp

theorem glue_head {k : Nat} {u : Bits} {ps : List Bits} (hu : ∃ t, u = true :: t)
    (hps : ∀ p ∈ ps, ∃ t, p = true :: t) : ∀ p ∈ glue k u ps, ∃ t, p = true :: t := by
  cases ps with
  | nil => simpa [glue] using hu
  | cons q qs =>
    simp only [glue]
    split
    · obtain ⟨t, rfl⟩ := hu
      intro p hp
      rcases List.mem_cons.1 hp with rfl | hp
      · exact ⟨_, rfl⟩
      · exact hps p (List.mem_cons_of_mem _ hp)
    · intro p hp
      rcases List.mem_cons.1 hp with rfl | hp
      · exact hu
      · exact hps p hp

/-- The pieces of a string are the string, stripped. -/
theorem pieces_flatten (k : Nat) (s : Bits) : (pieces k s).flatten = strip0 s := by
  rw [← units_flatten, pieces]
  induction units s with
  | nil => rfl
  | cons u us ih => simp [glue_flatten, ih]

/-- Every piece begins with `1`. -/
theorem pieces_head (k : Nat) (s : Bits) : ∀ p ∈ pieces k s, ∃ t, p = true :: t := by
  have h := units_head s
  rw [pieces]
  generalize units s = us at h
  induction us with
  | nil => simp
  | cons u us ih =>
    exact glue_head (h u List.mem_cons_self) (ih fun v hv => h v (List.mem_cons_of_mem _ hv))

end Sys2Proof
end

