-- ==== Sys2Proof/Laws/Config.lean ====
section
/-! SUPPORT. The canonical parameters field by field, and what R6 gives of any valid parameters. -/

namespace Sys2Proof

@[simp] theorem config_W : config.W = 32 := rfl
@[simp] theorem config_O : config.O = 6 := rfl
@[simp] theorem config_R : config.R = 3 := rfl
@[simp] theorem config_A : config.A = 10 := rfl
@[simp] theorem config_N : config.N = 8 := rfl
@[simp] theorem config_CONT : config.CONT = 63 := rfl
@[simp] theorem config_operandWidth : config.operandWidth = 26 := rfl
@[simp] theorem config_resetMem (a : Nat) : config.resetMem a = [false] := rfl

/-- An opcode below the marker fits its field. -/
theorem opcode_lt {cfg : Config} {op : Nat} (h : op < cfg.CONT) : op < 2 ^ cfg.O := lt_of_lt_of_le h (Nat.sub_le _ _)

theorem marker_lt (cfg : Config) : cfg.CONT < 2 ^ cfg.O := Nat.sub_lt (Nat.two_pow_pos _) one_pos

namespace Config.Valid

variable {cfg : Config} (hv : cfg.Valid)
include hv

theorem word_pos : 0 < cfg.W := Nat.lt_of_le_of_lt (Nat.zero_le _) hv.opcode_lt_word

theorem operandWidth_add : cfg.O + cfg.operandWidth = cfg.W := Nat.add_sub_cancel' hv.opcode_lt_word.le

/-- A number of cells is a number a register holds (R23). -/
theorem cells_lt : cfg.N < 2 ^ cfg.W := by
  refine lt_of_le_of_lt hv.cells_addressable (Nat.pow_lt_pow_right one_lt_two ?_)
  have := hv.addr_fits
  have := hv.opcode_pos
  have := hv.operandWidth_add
  omega

/-- A number the memory's size bounds is stored without error (R23). -/
theorem fromInt_fits {n : Nat} (h : n ≤ cfg.N) : (fromInt n).length ≤ cfg.W :=
  (fromInt_length_le_iff hv.word_pos).2 (lt_of_le_of_lt h hv.cells_lt)

end Config.Valid

end Sys2Proof
end

