-- ==== Sys2Proof/Laws/Decode.lean ====
section
/-! SUPPORT. How fields split and rejoin, and what the decoder answers. -/

namespace Sys2Proof

variable {cfg : Config}

/-! ## Fields -/

@[simp] theorem ofField_operation (op : Operation) (F : Bits) : (Instr.ofField cfg op F).operation? = some op := by
  cases op <;> rfl

@[simp] theorem ofField_firstField (op : Operation) (F : Bits) :
    (Instr.ofField cfg op F).firstField = F.take (op.firstWidth cfg) := by
  cases op <;> rfl

@[simp] theorem ofField_secondField (op : Operation) (F : Bits) :
    (Instr.ofField cfg op F).secondField = F.drop (op.firstWidth cfg) := by
  cases op <;> rfl

/-- Splitting a field loses no bit (R45). -/
@[simp] theorem ofField_field (op : Operation) (F : Bits) : (Instr.ofField cfg op F).field = F := by
  simp [Instr.field]

theorem firstWidth_le (hv : cfg.Valid) (op : Operation) : op.firstWidth cfg ≤ cfg.operandWidth := by
  cases op <;> first | exact hv.reg_fits | exact hv.addr_fits

theorem operation_none {i : Instr} (h : i.operation? = none) : ∃ x, i = .prefixWord x := by
  cases i <;> first | exact ⟨_, rfl⟩ | cases h

@[simp] theorem extend_operation (x : Bits) (i : Instr) : (i.extend cfg x).operation? = i.operation? := by
  unfold Instr.extend; split <;> simp_all

/-- The combined field of an extended operation (R63). -/
theorem extend_field {i : Instr} {op : Operation} (h : i.operation? = some op) (x : Bits) :
    (i.extend cfg x).field = combine x i.field := by
  unfold Instr.extend; rw [h]; exact ofField_field op _

/-! ## The dispatch table -/

theorem lookup_mem {m : List (Nat × Operation)} {k : Nat} {op : Operation} (h : m.lookup k = some op) : (k, op) ∈ m := by
  induction m with
  | nil => cases h
  | cons p m ih =>
    obtain ⟨j, o⟩ := p
    rw [List.lookup_cons] at h
    split at h
    · next hk => cases h; rw [beq_iff_eq] at hk; subst hk; exact List.mem_cons_self
    · exact List.mem_cons_of_mem _ (ih h)

theorem lookup_of_mem {m : List (Nat × Operation)} {k : Nat} {op : Operation} (hn : (m.map Prod.fst).Nodup)
    (h : (k, op) ∈ m) : m.lookup k = some op := by
  induction m with
  | nil => cases h
  | cons p m ih =>
    obtain ⟨j, o⟩ := p
    obtain ⟨hj, hn⟩ := List.nodup_cons.1 hn
    rw [List.lookup_cons]
    rcases List.mem_cons.1 h with heq | h'
    · cases heq; simp
    · have hkj : (k == j) = false := beq_false_of_ne fun e => hj (List.mem_map.2 ⟨(k, op), h', e⟩)
      rw [hkj]; exact ih hn h'

/-- Each operation has an opcode of its own below the marker (R50, R51). -/
theorem opcodeOf_spec (hv : cfg.Valid) (op : Operation) :
    cfg.opcodeMap.lookup (opcodeOf cfg op) = some op ∧ opcodeOf cfg op < cfg.CONT := by
  obtain ⟨p, hp, he⟩ := List.mem_map.1 (hv.operations_all op)
  cases hf : cfg.opcodeMap.find? (fun p => p.2 = op) with
  | none => exact absurd he (by simpa using List.find?_eq_none.1 hf p hp)
  | some q =>
    have hq := List.mem_of_find?_eq_some hf
    have hop : q.2 = op := by simpa using List.find?_some hf
    have : opcodeOf cfg op = q.1 := by rw [opcodeOf, hf]; rfl
    rw [this]
    exact ⟨lookup_of_mem hv.opcodes_once (hop ▸ hq), hv.opcodes_below_marker q hq⟩

/-- The opcode that selects an operation is the operation's opcode. -/
theorem opcodeOf_of_lookup (hv : cfg.Valid) {k : Nat} {op : Operation} (h : cfg.opcodeMap.lookup k = some op) :
    opcodeOf cfg op = k := by
  have h1 := lookup_mem h
  have h2 := lookup_mem (opcodeOf_spec hv op).1
  exact congrArg Prod.fst (List.inj_on_of_nodup_map hv.operations_once h2 h1 rfl)

/-! ## One word -/

theorem packWord_length (hv : cfg.Valid) {op : Nat} {ops : Bits} (h : ops.length = cfg.operandWidth) :
    (packWord cfg op ops).length = cfg.W := by
  rw [packWord, List.length_append, natBits_length, h, hv.operandWidth_add]

@[simp] theorem packWord_operandField (op : Nat) (ops : Bits) : operandField cfg (packWord cfg op ops) = ops := by
  unfold operandField packWord; exact List.drop_left' (natBits_length _ _)

theorem packWord_opcode {op : Nat} (h : op < 2 ^ cfg.O) (ops : Bits) :
    toInt (opcodeField cfg (packWord cfg op ops)) = op := by
  unfold opcodeField packWord
  rw [List.take_left' (natBits_length _ _), toInt_natBits, Nat.mod_eq_of_lt h]

/-- A word packed with an operation's opcode decodes to the operation on its operand field. -/
theorem decodeWord_operation (hv : cfg.Valid) (op : Operation) {ops : Bits} (h : ops.length = cfg.operandWidth) :
    decodeWord cfg (packWord cfg (opcodeOf cfg op) ops) = .instr (.ofField cfg op ops) := by
  obtain ⟨hl, hlt⟩ := opcodeOf_spec hv op
  rw [decodeWord, if_neg (by rw [packWord_length hv h]; simp), packWord_opcode (opcode_lt hlt), if_neg hlt.ne, hl,
    packWord_operandField]

/-- A word packed with the marker decodes to a prefix word. -/
theorem decodeWord_prefix (hv : cfg.Valid) {ops : Bits} (h : ops.length = cfg.operandWidth) :
    decodeWord cfg (packWord cfg cfg.CONT ops) = .instr (.prefixWord ops) := by
  rw [decodeWord, if_neg (by rw [packWord_length hv h]; simp), packWord_opcode (marker_lt cfg), if_pos rfl,
    packWord_operandField]

/-- What one word decodes to, case by case (R59, R60). -/
theorem decodeWord_cases (w : Bits) :
    (w.length ≠ cfg.W ∧ decodeWord cfg w = .error .malformed) ∨
    (w.length = cfg.W ∧ toInt (opcodeField cfg w) = cfg.CONT ∧
      decodeWord cfg w = .instr (.prefixWord (operandField cfg w))) ∨
    (w.length = cfg.W ∧ toInt (opcodeField cfg w) ≠ cfg.CONT ∧
      ∃ op, cfg.opcodeMap.lookup (toInt (opcodeField cfg w)) = some op ∧
        decodeWord cfg w = .instr (.ofField cfg op (operandField cfg w))) ∨
    (w.length = cfg.W ∧ toInt (opcodeField cfg w) ≠ cfg.CONT ∧
      cfg.opcodeMap.lookup (toInt (opcodeField cfg w)) = none ∧
      decodeWord cfg w = .error (.undefinedOpcode (toInt (opcodeField cfg w)))) := by
  unfold decodeWord
  by_cases hl : w.length = cfg.W
  · by_cases hc : toInt (opcodeField cfg w) = cfg.CONT
    · exact .inr (.inl ⟨hl, hc, by rw [if_neg (by simpa using hl), if_pos hc]⟩)
    · rw [if_neg (by simpa using hl), if_neg hc]
      cases h : cfg.opcodeMap.lookup (toInt (opcodeField cfg w)) with
      | some op => exact .inr (.inr (.inl ⟨hl, hc, op, rfl, rfl⟩))
      | none => exact .inr (.inr (.inr ⟨hl, hc, rfl, rfl⟩))
  · exact .inl ⟨hl, by rw [if_pos hl]⟩

/-! ## Whole instructions -/

theorem decode_of_operation {w : Bits} {ws : List Bits} {i : Instr} (h : decodeWord cfg w = .instr i)
    (hi : i.operation? ≠ none) : decode cfg (w :: ws) = .instr i ws := by
  unfold decode; rw [h]
  cases i <;> first | rfl | exact absurd rfl hi

theorem decode_of_prefix {w x : Bits} {ws : List Bits} (h : decodeWord cfg w = .instr (.prefixWord x)) :
    decode cfg (w :: ws) = match decode cfg ws with
      | .instr i rest => .instr (i.extend cfg x) rest
      | .error e rest => .error e rest := by
  cases hd : decode cfg ws <;> simp only [decode, h, hd]

theorem decode_of_error {w : Bits} {ws : List Bits} {e : DecodeError} (h : decodeWord cfg w = .error e) :
    decode cfg (w :: ws) = .error e ws := by
  rw [decode, h]

/-- What a list of words decodes to is an operation, never a prefix word (R64). -/
theorem decode_operation {ws rest : List Bits} {i : Instr} (h : decode cfg ws = .instr i rest) : i.operation? ≠ none := by
  induction ws generalizing i rest with
  | nil => cases h
  | cons w ws ih =>
    rcases decodeWord_cases (cfg := cfg) w with ⟨-, hd⟩ | ⟨-, -, hd⟩ | ⟨-, -, op, -, hd⟩ | ⟨-, -, -, hd⟩
    · rw [decode_of_error hd] at h; cases h
    · rw [decode_of_prefix hd] at h
      cases hr : decode cfg ws with
      | instr j r => rw [hr] at h; cases h; simpa using ih hr
      | error e r => rw [hr] at h; cases h
    · rw [decode_of_operation hd (by simp)] at h; cases h; simp
    · rw [decode_of_error hd] at h; cases h

/-- The words left after a decoding: fewer than were given, or none where the words end too early. -/
theorem decode_rest_length (ws : List Bits) :
    (∀ i rest, decode cfg ws = .instr i rest → rest.length < ws.length) ∧
    (∀ e rest, decode cfg ws = .error e rest → e = .wordsEnd ∧ rest = [] ∨ rest.length < ws.length) := by
  induction ws with
  | nil => exact ⟨fun i rest h => by simp [decode] at h, fun e rest h => by simp [decode] at h; simp [h]⟩
  | cons w ws ih =>
    rcases decodeWord_cases (cfg := cfg) w with ⟨-, hd⟩ | ⟨-, -, hd⟩ | ⟨-, -, op, -, hd⟩ | ⟨-, -, -, hd⟩
    · rw [decode_of_error hd]
      exact ⟨fun i rest h => (by cases h), fun e rest h => by cases h; simp⟩
    · rw [decode_of_prefix hd]
      cases hr : decode cfg ws with
      | instr j r =>
        refine ⟨fun i rest h => ?_, fun e rest h => (by cases h)⟩
        cases h
        have := ih.1 _ _ hr
        simp only [List.length_cons]; omega
      | error e' r =>
        refine ⟨fun i rest h => (by cases h), fun e rest h => ?_⟩
        cases h
        refine (ih.2 _ _ hr).imp id fun h => ?_
        simp only [List.length_cons]; omega
    · rw [decode_of_operation hd (by simp)]
      exact ⟨fun i rest h => (by cases h; simp), fun e rest h => by cases h⟩
    · rw [decode_of_error hd]
      exact ⟨fun i rest h => (by cases h), fun e rest h => by cases h; simp⟩

end Sys2Proof
end

