-- ==== Sys2Proof/Laws/Memory.lean ====
section
/-! SUPPORT. What a memory reads after a write, and that a write keeps the canonical form. -/

namespace Sys2Proof.Machine

@[simp] theorem read_nil (cfg : Config) (a : Nat) : Memory.read cfg [] a = cfg.resetMem a := rfl

/-- A cell that no entry lists reads as its power-on contents. -/
theorem read_of_unlisted {cfg : Config} {m : Memory} {a : Nat} (h : ∀ p ∈ m, p.1 ≠ a) : m.read cfg a = cfg.resetMem a := by
  induction m with
  | nil => rfl
  | cons p m ih =>
    obtain ⟨b, u⟩ := p
    rw [Memory.read, if_neg (Ne.symm (h _ List.mem_cons_self)), ih fun q hq => h q (List.mem_cons_of_mem _ hq)]

/-- The addresses a write leaves listed were listed, or are the one written. -/
theorem write_mem_key {cfg : Config} {m : Memory} {a : Nat} {v : Bits} {p : Cell} (h : p ∈ m.write cfg a v) :
    p ∈ m ∨ p = (a, v) ∧ v ≠ cfg.resetMem a := by
  induction m with
  | nil =>
    simp only [Memory.write] at h
    split at h
    · simp at h
    · next hv => exact .inr ⟨by simpa using h, hv⟩
  | cons q m ih =>
    obtain ⟨b, u⟩ := q
    simp only [Memory.write] at h
    split at h
    · split at h
      · exact .inl h
      · next hv => exact (List.mem_cons.1 h).elim (fun e => .inr ⟨e, hv⟩) .inl
    · split at h
      · split at h
        · exact .inl (List.mem_cons_of_mem _ h)
        · next hv => exact (List.mem_cons.1 h).elim (fun e => .inr ⟨e, hv⟩) fun h => .inl (List.mem_cons_of_mem _ h)
      · rcases List.mem_cons.1 h with rfl | h
        · exact .inl List.mem_cons_self
        · exact (ih h).imp (List.mem_cons_of_mem _) id

/-- Reading after a write: the value written at its address, what was there before elsewhere. -/
theorem read_write {cfg : Config} {m : Memory} (hm : m.Pairwise (fun p q => p.1 < q.1)) (a b : Nat) (v : Bits) :
    (m.write cfg a v).read cfg b = if b = a then v else m.read cfg b := by
  induction m with
  | nil =>
    simp only [Memory.write]
    split
    · next h => simp only [read_nil]; split <;> simp_all
    · simp only [Memory.read]
  | cons p m ih =>
    obtain ⟨c, u⟩ := p
    obtain ⟨hc, hm⟩ := List.pairwise_cons.1 hm
    have hlate : ∀ d, d ≤ c → Memory.read cfg m d = cfg.resetMem d := fun d hd =>
      read_of_unlisted fun q hq => by have : c < q.1 := hc q hq; omega
    simp only [Memory.write]
    split
    · next hac =>
      split
      · next hv =>
        by_cases hb : b = a
        · subst hb; rw [if_pos rfl, Memory.read, if_neg (by omega), hlate _ (by omega), hv]
        · rw [if_neg hb]
      · simp only [Memory.read]
    · split
      · next hac =>
        subst hac
        split
        · next hv =>
          by_cases hb : b = a
          · subst hb; rw [if_pos rfl, hlate _ le_rfl, hv]
          · rw [if_neg hb, Memory.read, if_neg hb]
        · simp only [Memory.read]
          split <;> rfl
      · next hne =>
        simp only [Memory.read, ih hm]
        split
        · next hb => rw [if_neg (by omega)]
        · rfl

/-- A write of a string that a cell holds, at an address the memory has, keeps the canonical form. -/
theorem write_wf {cfg : Config} {m : Memory} {a : Nat} {v : Bits} (hm : m.wf cfg) (ha : a < cfg.N)
    (hv : v.length ≤ cfg.W) : (m.write cfg a v).wf cfg := by
  refine ⟨?_, fun p hp => ?_⟩
  · have hs := hm.1
    clear hm
    induction m with
    | nil => simp only [Memory.write]; split <;> simp
    | cons q m ih =>
      obtain ⟨b, u⟩ := q
      obtain ⟨hb, hs'⟩ := List.pairwise_cons.1 hs
      simp only [Memory.write]
      split
      · next hab =>
        split
        · exact hs
        · refine List.pairwise_cons.2 ⟨fun p hp => ?_, hs⟩
          rcases List.mem_cons.1 hp with rfl | hp
          · exact hab
          · exact lt_trans hab (hb p hp)
      · split
        · next hab =>
          subst hab
          split
          · exact hs'
          · exact List.pairwise_cons.2 ⟨hb, hs'⟩
        · refine List.pairwise_cons.2 ⟨fun p hp => ?_, ih hs'⟩
          rcases write_mem_key hp with hp | ⟨rfl, -⟩
          · exact hb p hp
          · simp only; omega
  · rcases write_mem_key hp with hp | ⟨rfl, hne⟩
    · exact hm.2 p hp
    · exact ⟨ha, hv, hne⟩

/-- A cell of a canonical memory is at most `W` long, where the power-on contents are. -/
theorem read_length {cfg : Config} {m : Memory} (hm : m.wf cfg) (hr : ∀ a, (cfg.resetMem a).length ≤ cfg.W) (a : Nat) :
    (m.read cfg a).length ≤ cfg.W := by
  replace hm := hm.2
  induction m with
  | nil => exact hr a
  | cons p m ih =>
    obtain ⟨b, u⟩ := p
    simp only [Memory.read]
    split
    · exact (hm _ List.mem_cons_self).2.1
    · exact ih fun q hq => hm q (List.mem_cons_of_mem _ hq)

/-- Canonical memories that read alike everywhere are equal. -/
theorem eq_of_read_eq {cfg : Config} {m m' : Memory} (hm : m.wf cfg) (hm' : m'.wf cfg)
    (h : ∀ a, m.read cfg a = m'.read cfg a) : m = m' := by
  have late : ∀ {n : Memory} {b : Nat}, (∀ q ∈ n, b < q.1) → ∀ d, d ≤ b → n.read cfg d = cfg.resetMem d :=
    fun hn d hd => read_of_unlisted fun q hq => by have := hn q hq; omega
  induction m generalizing m' with
  | nil =>
    cases m' with
    | nil => rfl
    | cons q m' =>
      obtain ⟨c, u⟩ := q
      exact absurd (by simpa [Memory.read] using (h c).symm) (hm'.2 _ List.mem_cons_self).2.2
  | cons p m ih =>
    obtain ⟨b, v⟩ := p
    obtain ⟨hb, hs⟩ := List.pairwise_cons.1 hm.1
    cases m' with
    | nil => exact absurd (by simpa [Memory.read] using h b) (hm.2 _ List.mem_cons_self).2.2
    | cons q m' =>
      obtain ⟨c, u⟩ := q
      obtain ⟨hc, hs'⟩ := List.pairwise_cons.1 hm'.1
      have hbc : b = c := by
        rcases lt_trichotomy b c with hlt | heq | hgt
        · have := h b
          rw [Memory.read, if_pos rfl, Memory.read, if_neg (by omega), late hc _ hlt.le] at this
          exact absurd this (hm.2 _ List.mem_cons_self).2.2
        · exact heq
        · have := h c
          rw [Memory.read, if_neg (by omega), Memory.read, if_pos rfl, late hb _ hgt.le] at this
          exact absurd this.symm (hm'.2 _ List.mem_cons_self).2.2
      subst hbc
      have hvu : v = u := by simpa [Memory.read] using h b
      subst hvu
      congr 1
      refine ih ⟨hs, fun q hq => hm.2 q (List.mem_cons_of_mem _ hq)⟩ ⟨hs', fun q hq => hm'.2 q (List.mem_cons_of_mem _ hq)⟩ fun a => ?_
      by_cases ha : a = b
      · subst ha; rw [late hb _ le_rfl, late hc _ le_rfl]
      · have := h a
        rwa [Memory.read, if_neg ha, Memory.read, if_neg ha] at this

end Sys2Proof.Machine
end

