-- ==== Sys2Proof/Laws/State.lean ====
section
/-! SUPPORT. What each field of a state reads after each update of it. -/

namespace Sys2Proof.Machine

@[simp] theorem reg_AC (s : State) : s.reg .AC = s.ac := rfl
@[simp] theorem reg_DR (s : State) : s.reg .DR = s.dr := rfl
@[simp] theorem reg_CR (s : State) : s.reg .CR = s.cr := rfl
@[simp] theorem reg_PC (s : State) : s.reg .PC = s.pc := rfl
@[simp] theorem reg_IR (s : State) : s.reg .IR = s.ir := rfl

/-! ## report -/

@[simp] theorem report_ac (s : State) (st : Status) : (s.report st).ac = s.ac := rfl
@[simp] theorem report_dr (s : State) (st : Status) : (s.report st).dr = s.dr := rfl
@[simp] theorem report_cr (s : State) (st : Status) : (s.report st).cr = s.cr := rfl
@[simp] theorem report_pc (s : State) (st : Status) : (s.report st).pc = s.pc := rfl
@[simp] theorem report_ir (s : State) (st : Status) : (s.report st).ir = s.ir := rfl
@[simp] theorem report_mem (s : State) (st : Status) : (s.report st).mem = s.mem := rfl
@[simp] theorem report_status (s : State) (st : Status) : (s.report st).status = st := rfl
@[simp] theorem report_reg (s : State) (st : Status) (r : RegName) : (s.report st).reg r = s.reg r := by cases r <;> rfl
@[simp] theorem report_report (s : State) (st st' : Status) : (s.report st).report st' = s.report st' := rfl

/-! ## setReg -/

@[simp] theorem setReg_mem (s : State) (r : RegName) (b : Bits) : (s.setReg r b).mem = s.mem := by cases r <;> rfl
@[simp] theorem setReg_status (s : State) (r : RegName) (b : Bits) : (s.setReg r b).status = s.status := by cases r <;> rfl
@[simp] theorem setReg_reg_self (s : State) (r : RegName) (b : Bits) : (s.setReg r b).reg r = b := by cases r <;> rfl

theorem setReg_reg_ne (s : State) {r r' : RegName} (b : Bits) (h : r' ≠ r) : (s.setReg r b).reg r' = s.reg r' := by
  cases r <;> cases r' <;> first | rfl | exact absurd rfl h

theorem setReg_reg (s : State) (r r' : RegName) (b : Bits) :
    (s.setReg r b).reg r' = if r' = r then b else s.reg r' := by
  split
  · next h => subst h; simp
  · next h => exact setReg_reg_ne s b h

@[simp] theorem setReg_report (s : State) (r : RegName) (b : Bits) (st : Status) :
    (s.report st).setReg r b = (s.setReg r b).report st := by cases r <;> rfl

/-! ## the memory field -/

@[simp] theorem withMem_reg (s : State) (m : Memory) (r : RegName) : ({ s with mem := m } : State).reg r = s.reg r := by
  cases r <;> rfl

/-! ## Result -/

@[simp] theorem bind_ok {α β : Type} (a : α) (s : State) (f : α → State → Result β) : (Result.ok a s).bind f = f a s := rfl
@[simp] theorem bind_raised {α β : Type} (e : ErrorKind) (s : State) (f : α → State → Result β) :
    (Result.raised e s : Result α).bind f = .raised e s := rfl
@[simp] theorem bind_assoc {α β γ : Type} (x : Result α) (f : α → State → Result β) (g : β → State → Result γ) :
    (x.bind f).bind g = x.bind fun a s => (f a s).bind g := by cases x <;> rfl

@[simp] theorem finish_ok (s : State) : finish (.ok () s) = .next (s.report .ok) := rfl
@[simp] theorem finish_raised (e : ErrorKind) (s : State) : finish (.raised e s) = .next (s.report (.error e)) := rfl

/-- Where a sequence ends normally, its first part did, and the rest ran from there. -/
theorem bind_eq_ok {α β : Type} {x : Result α} {f : α → State → Result β} {b : β} {t : State} (h : x.bind f = .ok b t) :
    ∃ a s, x = .ok a s ∧ f a s = .ok b t := by
  cases x with
  | ok a s => exact ⟨a, s, rfl, h⟩
  | raised e s => cases h

end Sys2Proof.Machine
end

