-- ==== Sys2Proof/Laws/Ops.lean ====
section
/-! SUPPORT. For each shared operation, what it answers: the lemmas later proofs cite instead of unfolding it. -/

namespace Sys2Proof.Machine

variable {cfg : Config} {s t : State}

@[simp] theorem normalize_bits (b : Bits) : (Value.bits b).normalize = b := rfl
@[simp] theorem normalize_int (v : Nat) : (Value.int v).normalize = fromInt v := rfl

/-! ## Stores and reads -/

theorem storeReg_ok {r : RegName} {v : Value} (h : v.normalize.length ≤ cfg.W) :
    storeReg cfg r v s = .ok () (s.setReg r v.normalize) := by
  rw [storeReg, if_neg (by omega)]

theorem storeReg_too_long {r : RegName} {v : Value} (h : cfg.W < v.normalize.length) :
    storeReg cfg r v s = .raised .valueTooLong s := by
  rw [storeReg, if_pos h]

theorem storeReg_eq_ok {r : RegName} {v : Value} {u : Unit} (h : storeReg cfg r v s = .ok u t) :
    v.normalize.length ≤ cfg.W ∧ t = s.setReg r v.normalize := by
  unfold storeReg at h
  split at h
  · cases h
  · cases h; exact ⟨by omega, rfl⟩

theorem memRead_ok {a : Nat} (h : a < cfg.N) : memRead cfg a s = .ok (s.mem.read cfg a) s := by
  rw [memRead, if_pos h]

theorem memRead_not_found {a : Nat} (h : cfg.N ≤ a) : memRead cfg a s = .raised .addressNotFound s := by
  rw [memRead, if_neg (by omega)]

theorem memWrite_ok {a : Nat} {v : Value} (ha : a < cfg.N) (h : v.normalize.length ≤ cfg.W) :
    memWrite cfg a v s = .ok () { s with mem := s.mem.write cfg a v.normalize } := by
  rw [memWrite, if_pos ha, if_neg (by omega)]

theorem memWrite_too_long {a : Nat} {v : Value} (ha : a < cfg.N) (h : cfg.W < v.normalize.length) :
    memWrite cfg a v s = .raised .valueTooLong s := by
  rw [memWrite, if_pos ha, if_pos h]

theorem memWrite_not_found {a : Nat} {v : Value} (ha : cfg.N ≤ a) :
    memWrite cfg a v s = .raised .addressNotFound s := by
  rw [memWrite, if_neg (by omega)]

theorem memWrite_eq_ok {a : Nat} {v : Value} {u : Unit} (h : memWrite cfg a v s = .ok u t) :
    a < cfg.N ∧ v.normalize.length ≤ cfg.W ∧ t = { s with mem := s.mem.write cfg a v.normalize } := by
  unfold memWrite at h
  split at h
  · split at h
    · cases h
    · cases h; exact ⟨‹_›, by omega, rfl⟩
  · cases h

/-! ## Operands -/

theorem resolveReg_ok {field : Bits} {r : RegName} (h : cfg.regNames[toInt field]? = some r) :
    resolveReg cfg field s = .ok r s := by
  rw [resolveReg, h]

theorem resolveReg_not_found {field : Bits} (h : cfg.regNames[toInt field]? = none) :
    resolveReg cfg field s = .raised .registerNotFound s := by
  rw [resolveReg, h]

theorem resolveAddress_ok {field : Bits} (h : toInt field < cfg.N) :
    resolveAddress cfg field s = .ok (toInt field) s := by
  rw [resolveAddress, if_pos (by exact h)]; rfl

theorem resolveAddress_not_found {field : Bits} (h : cfg.N ≤ toInt field) :
    resolveAddress cfg field s = .raised .addressNotFound s := by
  rw [resolveAddress, if_neg (by unfold address; omega)]

@[simp] theorem address_eq (field : Bits) : address field = toInt field := rfl

/-! ## What a raised error leaves -/

theorem storeReg_raised {r : RegName} {v : Value} {e : ErrorKind} (h : storeReg cfg r v s = .raised e t) : t = s := by
  unfold storeReg at h; split at h <;> cases h; rfl

theorem memRead_raised {a : Nat} {e : ErrorKind} (h : memRead cfg a s = .raised e t) : t = s := by
  unfold memRead at h; split at h <;> cases h; rfl

theorem memWrite_raised {a : Nat} {v : Value} {e : ErrorKind} (h : memWrite cfg a v s = .raised e t) : t = s := by
  unfold memWrite at h
  split at h
  · split at h <;> cases h; rfl
  · cases h; rfl

/-! ## Fetch -/

/-- The state after one successful fetch. -/
def State.afterFetch (cfg : Config) (s : State) : State :=
  { s with ir := s.mem.read cfg (toInt s.pc), pc := fromInt (toInt s.pc + 1) }

@[simp] theorem afterFetch_pc : (s.afterFetch cfg).pc = fromInt (toInt s.pc + 1) := rfl
@[simp] theorem afterFetch_ir : (s.afterFetch cfg).ir = s.mem.read cfg (toInt s.pc) := rfl
@[simp] theorem afterFetch_mem : (s.afterFetch cfg).mem = s.mem := rfl

/-- A fetch that succeeds read the cell at PC and wrote IR and PC, and nothing else. -/
theorem fetch_eq_ok {w : Bits} (h : fetch cfg s = .ok w t) :
    toInt s.pc < cfg.N ∧ w = s.mem.read cfg (toInt s.pc) ∧ t = s.afterFetch cfg := by
  obtain ⟨w1, s1, h1, h⟩ := bind_eq_ok h
  obtain ⟨_, s2, h2, h⟩ := bind_eq_ok h
  obtain ⟨_, s3, h3, h⟩ := bind_eq_ok h
  cases h
  unfold memRead at h1
  split at h1
  · next hp =>
    cases h1
    obtain ⟨-, rfl⟩ := storeReg_eq_ok h2
    obtain ⟨-, rfl⟩ := storeReg_eq_ok h3
    exact ⟨hp, rfl, rfl⟩
  · cases h1

/-- A fetch past the last cell changes nothing (R58). -/
theorem fetch_not_found (h : cfg.N ≤ toInt s.pc) : fetch cfg s = .raised .addressNotFound s := by
  rw [fetch, reg_PC, memRead_not_found h, bind_raised]

/-- A fetch of a cell succeeds (R23, R24). -/
theorem fetch_ok (hv : cfg.Valid) (hw : (s.mem.read cfg (toInt s.pc)).length ≤ cfg.W) (h : toInt s.pc < cfg.N) :
    fetch cfg s = .ok (s.mem.read cfg (toInt s.pc)) (s.afterFetch cfg) := by
  rw [fetch, reg_PC, memRead_ok h, bind_ok, storeReg_ok (by exact hw), bind_ok,
    storeReg_ok (by exact hv.fromInt_fits h), bind_ok]
  rfl

end Sys2Proof.Machine
end

