-- ==== Sys2Proof/Laws/Execute.lean ====
section
/-! SUPPORT. What the operations can do, said once. -/

namespace Sys2Proof.Machine

variable {cfg : Config} {s : State}

/-- Whether an operation's destination is a register; of the others it is a memory cell. -/
def writesRegister : Operation → Bool
  | .moveRegisterConstant | .moveRegisterMemory | .addRegisterConstant | .addRegisterMemory => true
  | .moveMemoryConstant | .moveMemoryMemory | .moveMemoryRegister | .addMemoryRegister => false

/-- What an operation can do: raise, with nothing changed; or store a string of at most `W` characters in the register its
first sub-field names, or in the cell its first sub-field names. -/
inductive Effect (cfg : Config) (op : Operation) (first : Bits) (s : State) : Result Unit → Prop where
  | raised (e : ErrorKind) : Effect cfg op first s (.raised e s)
  | register (r : RegName) (b : Bits) (hop : writesRegister op = true) (hr : cfg.regNames[toInt first]? = some r)
      (hb : b.length ≤ cfg.W) : Effect cfg op first s (.ok () (s.setReg r b))
  | cell (b : Bits) (hop : writesRegister op = false) (ha : toInt first < cfg.N) (hb : b.length ≤ cfg.W) :
      Effect cfg op first s (.ok () { s with mem := s.mem.write cfg (toInt first) b })

theorem resolveReg_cases (cfg : Config) (field : Bits) (s : State) :
    (∃ r, cfg.regNames[toInt field]? = some r ∧ resolveReg cfg field s = .ok r s) ∨
      (cfg.regNames[toInt field]? = none ∧ resolveReg cfg field s = .raised .registerNotFound s) := by
  unfold resolveReg
  cases h : cfg.regNames[toInt field]? with
  | some r => exact .inl ⟨r, rfl, rfl⟩
  | none => exact .inr ⟨rfl, rfl⟩

theorem resolveAddress_cases (cfg : Config) (field : Bits) (s : State) :
    (toInt field < cfg.N ∧ resolveAddress cfg field s = .ok (toInt field) s) ∨
      (cfg.N ≤ toInt field ∧ resolveAddress cfg field s = .raised .addressNotFound s) := by
  rcases lt_or_ge (toInt field) cfg.N with h | h
  · exact .inl ⟨h, resolveAddress_ok h⟩
  · exact .inr ⟨h, resolveAddress_not_found h⟩

theorem memRead_cases (cfg : Config) (a : Nat) (s : State) :
    (a < cfg.N ∧ memRead cfg a s = .ok (s.mem.read cfg a) s) ∨
      (cfg.N ≤ a ∧ memRead cfg a s = .raised .addressNotFound s) := by
  rcases lt_or_ge a cfg.N with h | h
  · exact .inl ⟨h, memRead_ok h⟩
  · exact .inr ⟨h, memRead_not_found h⟩

/-- A register store as an operation's last statement. -/
theorem effect_storeReg {op : Operation} {first : Bits} {r : RegName} (v : Value) (hop : writesRegister op = true)
    (hr : cfg.regNames[toInt first]? = some r) : Effect cfg op first s (storeReg cfg r v s) := by
  rcases le_or_gt v.normalize.length cfg.W with h | h
  · rw [storeReg_ok h]; exact .register r _ hop hr h
  · rw [storeReg_too_long h]; exact .raised _

/-- A memory store as an operation's last statement. -/
theorem effect_memWrite {op : Operation} {first : Bits} (v : Value) (hop : writesRegister op = false) :
    Effect cfg op first s (memWrite cfg (toInt first) v s) := by
  rcases lt_or_ge (toInt first) cfg.N with ha | ha
  · rcases le_or_gt v.normalize.length cfg.W with h | h
    · rw [memWrite_ok ha h]; exact .cell _ hop ha h
    · rw [memWrite_too_long ha h]; exact .raised _
  · rw [memWrite_not_found ha]; exact .raised _

/-- Every operation has one of these effects, whatever its sub-fields. -/
theorem operate_effect (cfg : Config) (op : Operation) (first second : Bits) (s : State) :
    Effect cfg op first s (operate cfg op first second s) := by
  cases op with
  | moveRegisterConstant =>
    rcases resolveReg_cases cfg first s with ⟨r, hr, h⟩ | ⟨-, h⟩ <;> simp only [operate, moveRegisterConstant, h, bind_ok, bind_raised]
    · exact effect_storeReg _ rfl hr
    · exact .raised _
  | moveRegisterMemory =>
    rcases resolveReg_cases cfg first s with ⟨r, hr, h⟩ | ⟨-, h⟩ <;> simp only [operate, moveRegisterMemory, h, bind_ok, bind_raised]
    · rcases memRead_cases cfg (address second) s with ⟨-, h⟩ | ⟨-, h⟩ <;> simp only [h, bind_ok, bind_raised]
      · exact effect_storeReg _ rfl hr
      · exact .raised _
    · exact .raised _
  | moveMemoryConstant => exact effect_memWrite _ rfl
  | moveMemoryMemory =>
    rcases resolveAddress_cases cfg first s with ⟨-, h⟩ | ⟨-, h⟩ <;> simp only [operate, moveMemoryMemory, h, bind_ok, bind_raised]
    · rcases memRead_cases cfg (address second) s with ⟨-, h⟩ | ⟨-, h⟩ <;> simp only [h, bind_ok, bind_raised]
      · exact effect_memWrite _ rfl
      · exact .raised _
    · exact .raised _
  | moveMemoryRegister =>
    rcases resolveAddress_cases cfg first s with ⟨-, h⟩ | ⟨-, h⟩ <;> simp only [operate, moveMemoryRegister, h, bind_ok, bind_raised]
    · rcases resolveReg_cases cfg second s with ⟨r, -, h⟩ | ⟨-, h⟩ <;> simp only [h, bind_ok, bind_raised]
      · exact effect_memWrite _ rfl
      · exact .raised _
    · exact .raised _
  | addRegisterConstant =>
    rcases resolveReg_cases cfg first s with ⟨r, hr, h⟩ | ⟨-, h⟩ <;> simp only [operate, addRegisterConstant, h, bind_ok, bind_raised]
    · exact effect_storeReg _ rfl hr
    · exact .raised _
  | addRegisterMemory =>
    rcases resolveReg_cases cfg first s with ⟨r, hr, h⟩ | ⟨-, h⟩ <;> simp only [operate, addRegisterMemory, h, bind_ok, bind_raised]
    · rcases memRead_cases cfg (address second) s with ⟨-, h⟩ | ⟨-, h⟩ <;> simp only [h, bind_ok, bind_raised]
      · exact effect_storeReg _ rfl hr
      · exact .raised _
    · exact .raised _
  | addMemoryRegister =>
    rcases resolveAddress_cases cfg first s with ⟨ha, h⟩ | ⟨-, h⟩ <;> simp only [operate, addMemoryRegister, h, bind_ok, bind_raised]
    · rcases resolveReg_cases cfg second s with ⟨r, -, h⟩ | ⟨-, h⟩ <;> simp only [h, bind_ok, bind_raised]
      · rw [memRead_ok ha, bind_ok]; exact effect_memWrite _ rfl
      · exact .raised _
    · exact .raised _

/-! ## exec -/

/-- The arm of an operation is that operation on the instruction's sub-fields. -/
theorem exec_operation {i : Instr} {op : Operation} (h : i.operation? = some op) (s : State) :
    exec i s = finish (operate config op i.firstField i.secondField s) := by
  cases i <;> cases h <;> rfl

@[simp] theorem exec_prefixWord (x : Bits) (s : State) : exec (.prefixWord x) s = finish (continuation config x s) := rfl

theorem exec_ofField (op : Operation) (F : Bits) (s : State) :
    exec (.ofField config op F) s = finish (perform config op F s) := by
  rw [exec_operation (ofField_operation op F)]; simp [perform, firstSub, secondSub]

/-- Every outcome of an instruction is a next state. -/
theorem exec_next (i : Instr) (s : State) : ∃ t, exec i s = .next t := by
  cases i <;> exact ⟨_, rfl⟩

end Sys2Proof.Machine
end

