-- ==== Sys2Proof/Laws/Continuation.lean ====
section
/-! SUPPORT. The continuation chain: the fuel of `analyze` does not matter, and `analyze` on the machine is the decoder on
the words of the memory. -/

namespace Sys2Proof.Machine

variable {cfg : Config} {s : State}

/-- Two fuels that both cover the cells from PC to the last give one answer (R67). -/
theorem analyze_fuel {f f' : Nat} (w : Bits) (s : State) (h : cfg.N - toInt s.pc ≤ f) (h' : cfg.N - toInt s.pc ≤ f') :
    analyze cfg f w s = analyze cfg f' w s := by
  induction f generalizing f' w s with
  | zero =>
    cases f' with
    | zero => rfl
    | succ f' =>
      rw [analyze, analyze]
      split
      · rfl
      · split
        · rw [fetch_not_found (by omega), bind_raised]
        · rfl
  | succ f ih =>
    cases f' with
    | zero =>
      rw [analyze, analyze]
      split
      · rfl
      · split
        · rw [fetch_not_found (by omega), bind_raised]
        · rfl
    | succ f' =>
      rw [analyze, analyze]
      split
      · rfl
      · split
        · cases hf : fetch cfg s with
          | raised e t => rfl
          | ok w2 t =>
            obtain ⟨-, -, rfl⟩ := fetch_eq_ok hf
            rw [bind_ok, bind_ok, ih w2 _ (f' := f') (by rw [afterFetch_pc, toInt_fromInt]; omega)
              (by rw [afterFetch_pc, toInt_fromInt]; omega)]
        · rfl

/-! ## The words a step can fetch -/

theorem image_length (s : State) : (s.image cfg).length = cfg.N - toInt s.pc := by simp [State.image]

theorem image_nil (h : cfg.N ≤ toInt s.pc) : s.image cfg = [] := by
  have : cfg.N - toInt s.pc = 0 := by omega
  simp [State.image, this]

/-- The word at PC, and then what the state after fetching it can fetch. -/
theorem image_cons (h : toInt s.pc < cfg.N) :
    s.image cfg = s.mem.read cfg (toInt s.pc) :: (s.afterFetch cfg).image cfg := by
  have : cfg.N - toInt s.pc = (cfg.N - (toInt s.pc + 1)) + 1 := by omega
  simp only [State.image, this, List.range'_succ, List.map_cons, afterFetch_pc, toInt_fromInt, afterFetch_mem]

@[simp] theorem fetched_zero (s : State) : s.fetched cfg 0 = s := rfl

@[simp] theorem fetched_mem (n : Nat) (s : State) : (s.fetched cfg n).mem = s.mem := by cases n <;> rfl

theorem fetched_pc (n : Nat) (s : State) (hn : n ≠ 0) : (s.fetched cfg n).pc = fromInt (toInt s.pc + n) := by
  obtain ⟨n, rfl⟩ := Nat.exists_eq_succ_of_ne_zero hn; rfl

/-- PC's value after any number of fetches (R22). -/
theorem toInt_fetched_pc (n : Nat) (s : State) : toInt (s.fetched cfg n).pc = toInt s.pc + n := by
  cases n with
  | zero => rfl
  | succ n => rw [fetched_pc _ _ (by omega), toInt_fromInt]

/-- One fetch and then `n` more are `n + 1` fetches. -/
theorem fetched_succ (n : Nat) (s : State) : (s.afterFetch cfg).fetched cfg n = s.fetched cfg (n + 1) := by
  cases n with
  | zero => rfl
  | succ n =>
    simp only [State.fetched, toInt_fromInt, State.afterFetch]
    rw [show toInt s.pc + 1 + n = toInt s.pc + (n + 1) by omega]

theorem afterFetch_eq (s : State) : s.afterFetch cfg = s.fetched cfg 1 := rfl

/-! ## analyze is the decoder on the memory's words -/

/-- What `analyze` of a fetched word `w` answers, by what the decoder reads from `w` and the words after it: an
operation's opcode and its whole operand field; an opcode that is in no table; or the decoder's error. Each comes with the
state in which as many words were fetched as the decoder read beyond `w`. -/
inductive Analyzed (cfg : Config) (s : State) : Decoded → Result (Nat × Bits) → Prop where
  | instr {i : Instr} {rest : List Bits} (op : Operation) (k : Nat) (hi : i = .ofField cfg op i.field)
      (hk : cfg.opcodeMap.lookup k = some op) (hc : k ≠ cfg.CONT) :
      Analyzed cfg s (.instr i rest) (.ok (k, i.field) (s.fetched cfg ((s.image cfg).length - rest.length)))
  | undefined {rest : List Bits} (k : Nat) (F : Bits) (hk : cfg.opcodeMap.lookup k = none) (hc : k ≠ cfg.CONT) :
      Analyzed cfg s (.error (.undefinedOpcode k) rest) (.ok (k, F) (s.fetched cfg ((s.image cfg).length - rest.length)))
  | malformed {rest : List Bits} :
      Analyzed cfg s (.error .malformed rest)
        (.raised .malformedInstruction (s.fetched cfg ((s.image cfg).length - rest.length)))
  | wordsEnd : Analyzed cfg s (.error .wordsEnd []) (.raised .addressNotFound (s.fetched cfg (s.image cfg).length))

/-- A string of a canonical memory is no longer than a word. -/
theorem read_fits (hv : cfg.Valid) (hs : s.mem.wf cfg) (a : Nat) : (s.mem.read cfg a).length ≤ cfg.W :=
  read_length hs hv.resetMem_length a

theorem analyze_decode (hv : cfg.Valid) {f : Nat} (w : Bits) (s : State) (hs : s.mem.wf cfg) (hf : cfg.N - toInt s.pc ≤ f) :
    Analyzed cfg s (decode cfg (w :: s.image cfg)) (analyze cfg f w s) := by
  induction f generalizing w s with
  | zero =>
    have himg : s.image cfg = [] := image_nil (by omega)
    rcases decodeWord_cases (cfg := cfg) w with ⟨hl, hd⟩ | ⟨hl, hc, hd⟩ | ⟨hl, hc, op, hop, hd⟩ | ⟨hl, hc, hop, hd⟩
    · rw [decode_of_error hd, analyze, if_pos hl]
      simpa [himg] using Analyzed.malformed (cfg := cfg) (s := s) (rest := s.image cfg)
    · rw [decode_of_prefix hd, himg, analyze, if_neg (by simpa using hl), if_pos hc]
      simpa [himg, decode] using Analyzed.wordsEnd (cfg := cfg) (s := s)
    · rw [decode_of_operation hd (by simp), analyze, if_neg (by simpa using hl), if_neg hc]
      simpa using Analyzed.instr (cfg := cfg) (s := s) (i := .ofField cfg op (operandField cfg w)) (rest := s.image cfg) op _
        (by simp) hop hc
    · rw [decode_of_error hd, analyze, if_neg (by simpa using hl), if_neg hc]
      simpa using Analyzed.undefined (cfg := cfg) (s := s) (rest := s.image cfg) _ (operandField cfg w) hop hc
  | succ f ih =>
    rcases decodeWord_cases (cfg := cfg) w with ⟨hl, hd⟩ | ⟨hl, hc, hd⟩ | ⟨hl, hc, op, hop, hd⟩ | ⟨hl, hc, hop, hd⟩
    · rw [decode_of_error hd, analyze, if_pos hl]
      simpa using Analyzed.malformed (cfg := cfg) (s := s) (rest := s.image cfg)
    · rw [decode_of_prefix hd, analyze, if_neg (by simpa using hl), if_pos hc]
      rcases lt_or_ge (toInt s.pc) cfg.N with hp | hp
      · simp only [fetch_ok hv (read_fits hv hs _) hp, bind_ok]
        have h := ih (s.mem.read cfg (toInt s.pc)) (s.afterFetch cfg) hs (by rw [afterFetch_pc, toInt_fromInt]; omega)
        rw [← image_cons hp] at h
        have hlen : (s.image cfg).length = ((s.afterFetch cfg).image cfg).length + 1 := by
          rw [image_cons hp]; rfl
        have hrest := decode_rest_length (cfg := cfg) (s.image cfg)
        generalize hr : analyze cfg f (s.mem.read cfg (toInt s.pc)) (s.afterFetch cfg) = r at h
        generalize hde : decode cfg (s.image cfg) = d at h hrest
        have hcount : ∀ n, n ≤ ((s.afterFetch cfg).image cfg).length →
            (s.afterFetch cfg).fetched cfg (((s.afterFetch cfg).image cfg).length - n) =
              s.fetched cfg ((s.image cfg).length - n) := by
          intro n hn
          rw [fetched_succ, hlen, Nat.sub_add_comm hn]
        cases h with
        | @instr i rest op k hi hk hc' =>
          have := hrest.1 _ _ rfl
          rw [bind_ok, hcount _ (by omega)]
          have hio : i.operation? = some op := by rw [hi]; simp
          have hfield := extend_field (cfg := cfg) hio (operandField cfg w)
          rw [← hfield]
          exact .instr op k (by rw [hfield]; unfold Instr.extend; rw [hio]) hk hc'
        | @undefined rest k F hk hc' =>
          have : rest.length < _ := (hrest.2 _ _ rfl).resolve_left (by simp)
          rw [bind_ok, hcount _ (by omega)]
          exact .undefined k _ hk hc'
        | @malformed rest =>
          have : rest.length < _ := (hrest.2 _ _ rfl).resolve_left (by simp)
          rw [bind_raised, hcount _ (by omega)]
          exact .malformed
        | wordsEnd =>
          have := hcount 0 (Nat.zero_le _)
          rw [bind_raised]
          simp only [Nat.sub_zero] at this
          rw [this]
          exact .wordsEnd
      · rw [fetch_not_found hp, bind_raised, image_nil hp]
        simpa [image_nil hp, decode] using Analyzed.wordsEnd (cfg := cfg) (s := s)
    · rw [decode_of_operation hd (by simp), analyze, if_neg (by simpa using hl), if_neg hc]
      simpa using Analyzed.instr (cfg := cfg) (s := s) (i := .ofField cfg op (operandField cfg w)) (rest := s.image cfg) op _
        (by simp) hop hc
    · rw [decode_of_error hd, analyze, if_neg (by simpa using hl), if_neg hc]
      simpa using Analyzed.undefined (cfg := cfg) (s := s) (rest := s.image cfg) _ (operandField cfg w) hop hc

end Sys2Proof.Machine
end

