-- ==== Sys2Proof/Laws/Invariant.lean ====
section
/-! SUPPORT. The canonical parameters are valid, and every update an operation makes keeps a state a state of the machine. -/

namespace Sys2Proof

/-- The canonical parameters meet R6. -/
theorem config_valid : config.Valid where
  opcode_pos := by decide
  opcode_lt_word := by decide
  reg_fits := by decide
  addr_fits := by decide
  cells_pos := by decide
  names_indexable := by decide
  cells_addressable := by decide
  names_once := by decide
  names_all := fun r => by cases r <;> decide
  opcodes_once := by decide
  opcodes_below_marker := by decide
  operations_once := by decide
  operations_all := fun op => by cases op <;> decide
  resetReg_length := fun r => by cases r <;> decide
  resetMem_length := fun _ => by simp

namespace Machine

variable {cfg : Config} {s : State}

theorem report_inv (h : s.Inv cfg) (st : Status) : (s.report st).Inv cfg :=
  ⟨fun r => by simpa using h.reg_length r, h.mem_wf⟩

theorem setReg_inv (h : s.Inv cfg) (r : RegName) {b : Bits} (hb : b.length ≤ cfg.W) : (s.setReg r b).Inv cfg :=
  ⟨fun r' => by rw [setReg_reg]; split <;> [exact hb; exact h.reg_length r'], by simpa using h.mem_wf⟩

theorem write_inv (h : s.Inv cfg) {a : Nat} {b : Bits} (ha : a < cfg.N) (hb : b.length ≤ cfg.W) :
    ({ s with mem := s.mem.write cfg a b } : State).Inv cfg :=
  ⟨fun r => by rw [withMem_reg]; exact h.reg_length r, write_wf h.mem_wf ha hb⟩

/-- Fetches keep a state a state of the machine, as long as they read cells (R23, R24). -/
theorem fetched_inv (hv : cfg.Valid) (h : s.Inv cfg) {n : Nat} (hn : toInt s.pc + n ≤ cfg.N) : (s.fetched cfg n).Inv cfg := by
  cases n with
  | zero => exact h
  | succ n =>
    refine ⟨fun r => ?_, h.mem_wf⟩
    cases r with
    | AC => exact h.reg_length .AC
    | DR => exact h.reg_length .DR
    | CR => exact h.reg_length .CR
    | PC => exact hv.fromInt_fits (by omega)
    | IR => exact read_fits hv h.mem_wf _

/-- An operation keeps a state a state of the machine. -/
theorem effect_inv {op : Operation} {first : Bits} {x : Result Unit} (h : s.Inv cfg) (hx : Effect cfg op first s x) :
    x.state.Inv cfg := by
  cases hx with
  | raised e => exact h
  | register r b _ _ hb => exact setReg_inv h r hb
  | cell b _ ha hb => exact write_inv h ha hb

end Machine

end Sys2Proof
end

