-- ==== Sys2Proof/Laws/PerInstr.lean ====
section
/-! SUPPORT. Facts about every instruction as syntax, one lemma per constructor. -/

namespace Sys2Proof.Laws.FieldRejoins

/-- An operation whose first sub-field has its fixed width is what the split rule makes of its own operand field (R45, R46). -/
def Statement (i : Instr) : Prop :=
  ∀ cfg op, i.operation? = some op → i.firstField.length = op.firstWidth cfg → Instr.ofField cfg op i.field = i

theorem rejoin {cfg : Config} {op : Operation} {first second : Bits} (h : first.length = op.firstWidth cfg) :
    firstSub cfg op (first ++ second) = first ∧ secondSub cfg op (first ++ second) = second :=
  ⟨List.take_left' h, List.drop_left' h⟩

theorem moveRegisterConstant (r c : Bits) : Statement (.moveRegisterConstant r c) := by
  rintro cfg op ⟨⟩ h; exact congrArg₂ _ (rejoin h).1 (rejoin h).2

theorem moveRegisterMemory (r a : Bits) : Statement (.moveRegisterMemory r a) := by
  rintro cfg op ⟨⟩ h; exact congrArg₂ _ (rejoin h).1 (rejoin h).2

theorem moveMemoryConstant (a c : Bits) : Statement (.moveMemoryConstant a c) := by
  rintro cfg op ⟨⟩ h; exact congrArg₂ _ (rejoin h).1 (rejoin h).2

theorem moveMemoryMemory (d src : Bits) : Statement (.moveMemoryMemory d src) := by
  rintro cfg op ⟨⟩ h; exact congrArg₂ _ (rejoin h).1 (rejoin h).2

theorem moveMemoryRegister (a r : Bits) : Statement (.moveMemoryRegister a r) := by
  rintro cfg op ⟨⟩ h; exact congrArg₂ _ (rejoin h).1 (rejoin h).2

theorem addRegisterConstant (r c : Bits) : Statement (.addRegisterConstant r c) := by
  rintro cfg op ⟨⟩ h; exact congrArg₂ _ (rejoin h).1 (rejoin h).2

theorem addRegisterMemory (r a : Bits) : Statement (.addRegisterMemory r a) := by
  rintro cfg op ⟨⟩ h; exact congrArg₂ _ (rejoin h).1 (rejoin h).2

theorem addMemoryRegister (a r : Bits) : Statement (.addMemoryRegister a r) := by
  rintro cfg op ⟨⟩ h; exact congrArg₂ _ (rejoin h).1 (rejoin h).2

theorem prefixWord (x : Bits) : Statement (.prefixWord x) := by
  rintro cfg op ⟨⟩

end Sys2Proof.Laws.FieldRejoins
end

