-- ==== Sys2Proof/Tests/Slice0.lean ====
section
/-! SUPPORT. The model's own tests: words written out from the encodings of `30_encoding.md`, the vectors of
`95_test_vectors.md` (each named by its id), the well-formedness checks, and a witness for the hypotheses of every
statement that has some. -/

namespace Sys2Proof.Tests

open Sys2Proof.Machine

/-- A 32-bit word, its bit 31 first (R42). -/
def word (v : Nat) : Bits := natBits 32 v

/-- A bit string from its characters. -/
def str (s : String) : Bits := s.toList.map fun c => c == '1'

/-- The reset state with PC at `pc` and some cells written. -/
def demo (pc : Nat) (cells : List (Nat × Bits)) : State :=
  { State.reset with
    pc := fromInt pc
    mem := cells.foldl (fun m c => Memory.write config m c.1 c.2) [] }

/-- The state a step answers. -/
def after (s : State) : State :=
  match step s with
  | .next t => t
  | .fault _ => s
  | .refused _ => s

/-- A decidable form of `State.Inv`. -/
abbrev machineState (s : State) : Prop :=
  s.ac.length ≤ 32 ∧ s.dr.length ≤ 32 ∧ s.cr.length ≤ 32 ∧ s.pc.length ≤ 32 ∧ s.ir.length ≤ 32 ∧ s.mem.wf config

theorem inv_of_machineState {s : State} (h : machineState s) : s.Inv config :=
  ⟨fun r => by cases r <;> simp [machineState] at h <;> simp [h], h.2.2.2.2.2⟩

/-! ## Decoding: words written out bit by bit (R48, R50) -/

theorem test_decode_moveRegisterConstant :
    decodeWord config (str "00000001000000000000000000101010") = .instr (.moveRegisterConstant (str "010") (str "00000000000000000101010")) := by decide

theorem test_decode_moveRegisterMemory :
    decodeWord config (str "00000100100000000000000000000111") = .instr (.moveRegisterMemory (str "001") (str "00000000000000000000111")) := by decide

theorem test_decode_moveMemoryConstant :
    decodeWord config (str "00001000000001110000000000000011") = .instr (.moveMemoryConstant (str "0000000111") (str "0000000000000011")) := by decide

theorem test_decode_moveMemoryMemory :
    decodeWord config (str "00001100000000110000000000000101") = .instr (.moveMemoryMemory (str "0000000011") (str "0000000000000101")) := by decide

theorem test_decode_moveMemoryRegister :
    decodeWord config (str "00010000000001100000000000000011") = .instr (.moveMemoryRegister (str "0000000110") (str "0000000000000011")) := by decide

theorem test_decode_addRegisterConstant :
    decodeWord config (str "00010101100000000000000000000011") = .instr (.addRegisterConstant (str "011") (str "00000000000000000000011")) := by decide

theorem test_decode_addRegisterMemory :
    decodeWord config (str "00011000000000000000000000000111") = .instr (.addRegisterMemory (str "000") (str "00000000000000000000111")) := by decide

theorem test_decode_addMemoryRegister :
    decodeWord config (str "00011100000001010000000000000011") = .instr (.addMemoryRegister (str "0000000101") (str "0000000000000011")) := by decide

theorem test_decode_prefixWord :
    decodeWord config (str "11111100000001010000000010000000") = .instr (.prefixWord (str "00000001010000000010000000")) := by decide

theorem test_decode_undefined : decodeWord config (word 0x20000000) = .error (.undefinedOpcode 8) := by decide

theorem test_decode_short : decodeWord config (str "101") = .error .malformed := by decide

/-- V-D7: a chain of two prefix words, each level stripping what follows it. -/
theorem test_decode_chain :
    decode config [word 0xFD000001, word 0xFC000001, word 0x00000003] =
      .instr (.moveRegisterConstant (str "010") (str "00000000000000000000001111")) [] := by decide

theorem test_decode_ends : decode config [word 0xFC000001] = .error .wordsEnd [] := by decide

/-- R57: a raw constant of 32 characters takes a prefix word and a continuation word (program P3). -/
theorem test_encode_continued :
    encode config (.moveMemoryConstant (str "0000000101") (str "00000000100000001000000000000001")) =
      [word 0xFC050080, word 0x08008001] := by decide

theorem test_table_word : decodeTableWord 32 0x04800007 = some (.moveRegisterMemory (str "001") (natBits 23 7)) := by decide

theorem test_table_prefix_runs :
    (after (State.reset.withFetchWord 32 0xFC000003)).ac = str "11" := by decide

/-! ## Well-formedness: each check refuses a term (R42 to R49, R67) -/

theorem test_wf_accepts :
    (Instr.moveMemoryConstant (str "0000000101") (str "00000000100000001000000000000001")).WellFormed config := by decide

theorem test_wf_first_width : ¬ (Instr.moveRegisterConstant (str "0000") (natBits 23 0)).WellFormed config := by decide

theorem test_wf_field_short : ¬ (Instr.moveRegisterConstant (str "000") (natBits 22 0)).WellFormed config := by decide

theorem test_wf_tail_leading_zero : ¬ (Instr.moveRegisterConstant (str "000") (natBits 23 0 ++ str "01")).WellFormed config := by
  decide

theorem test_wf_tail_uncuttable :
    (Instr.moveRegisterConstant (str "000") (natBits 23 0 ++ str "1" ++ natBits 26 0)).tailCuttable config = false := by decide

theorem test_wf_too_many_words :
    (Instr.moveRegisterConstant (str "000") (natBits 23 0 ++ List.replicate 183 true)).fitsMemory config = false := by
  decide +kernel

theorem test_wf_prefix_width : ¬ (Instr.prefixWord (natBits 25 0)).WellFormed config := by decide

/-! ## Bit strings -/

/-- S1, D2, D5. -/
theorem test_bitword :
    fromInt 5 8 = str "00000101" ∧ fromInt 0 = str "0" ∧ toInt [] = 0 ∧ strip0 (str "00010") = str "10" ∧ strip0 (str "000") = [] := by
  decide

/-- S3: `2^32 - 1` is stored, `2^32` is not. -/
theorem test_store_bound :
    memWrite config 2 (.int (2 ^ 32 - 1)) State.reset = .ok () (demo 0 [(2, List.replicate 32 true)]) ∧
    memWrite config 2 (.int (2 ^ 32)) State.reset = .raised .valueTooLong State.reset := by decide

/-! ## Fetch, decode and continuation -/

/-- V-D1. -/
theorem test_VD1 : after (demo 0 [(0, word 0x0000002A)]) =
    { demo 0 [(0, word 0x0000002A)] with ac := str "101010", pc := str "1", ir := word 0x0000002A } := by decide

/-- V-D2. -/
theorem test_VD2 : after (demo 0 [(0, str "101")]) =
    { demo 0 [(0, str "101")] with pc := str "1", ir := str "101", status := .error .malformedInstruction } := by decide

/-- V-D3: the pinned stripping. -/
theorem test_VD3 : after (demo 0 [(0, word 0xFC000001), (1, word 1)]) =
    { demo 0 [(0, word 0xFC000001), (1, word 1)] with ac := str "11", pc := str "10", ir := word 1 } := by decide

/-- V-D5. -/
theorem test_VD5 : after (demo 7 [(7, word 0xFC000001)]) =
    { demo 7 [(7, word 0xFC000001)] with pc := str "1000", ir := word 0xFC000001, status := .error .addressNotFound } := by
  decide

/-- V-D9. -/
theorem test_VD9 : after (demo 8 []) = { demo 8 [] with status := .error .addressNotFound } := by decide

/-- V-D10: the first field comes from the prefix word. -/
theorem test_VD10 : (after (demo 0 [(0, word 0xFC800000), (1, word 0x00000081)])).dr = str "10000001" := by decide

/-- V-D11. -/
theorem test_VD11 : (after (demo 0 [(0, word 0xFC000001), (1, word 0xA0000001)])).status = .error .undefinedOpcode ∧
    (after (demo 0 [(0, word 0xFC000001), (1, word 0xA0000001)])).pc = str "10" := by decide

/-! ## The operations, two cases each -/

/-- V-M1. -/
theorem test_VM1 : (after (demo 0 [(0, word 0x01800005)])).pc = str "101" := by decide

/-- V-M5: a 33-bit constant is rejected and the register keeps its string. -/
theorem test_VM5 : after { demo 0 [(0, word 0xFD7FFFFF), (1, word 0x000003FF)] with cr := str "1" } =
    { demo 2 [(0, word 0xFD7FFFFF), (1, word 0x000003FF)] with
      cr := str "1", ir := word 0x000003FF, status := .error .valueTooLong } := by decide

/-- V-M6: a raw copy, leading zeros kept. -/
theorem test_VM6 : (after (demo 0 [(0, word 0x04800007), (7, str "0000000000000011")])).dr = str "0000000000000011" := by
  decide

/-- V-M7: the first field's error comes first. -/
theorem test_VM7 : (after (demo 0 [(0, word 0x07800009)])).status = .error .registerNotFound := by decide

/-- V-M9. -/
theorem test_VM9 : (after (demo 0 [(0, word 0x08070003)])).mem = (demo 0 [(0, word 0x08070003), (7, natBits 16 3)]).mem := by
  decide

/-- V-M12: 42 characters are too long. -/
theorem test_VM12 : (after (demo 0 [(0, word 0xFC050080), (1, word 0x0BFFFFFF)])).status = .error .valueTooLong := by decide

/-- V-M13. -/
theorem test_VM13 : (after (demo 0 [(0, word 0x0C030005), (5, word 0x00808001)])).mem.read config 3 = word 0x00808001 := by
  decide

/-- V-M14. -/
theorem test_VM14 : (after (demo 0 [(0, word 0x0C090001)])).status = .error .addressNotFound := by decide

/-- V-M16: the incremented PC. -/
theorem test_VM16 : (after (demo 0 [(0, word 0x10060003)])).mem.read config 6 = str "1" := by decide

/-- V-M19: the first field's error comes first. -/
theorem test_VM19 : (after (demo 0 [(0, word 0x10090007)])).status = .error .addressNotFound := by decide

/-- V-A2: an overflow leaves the register. -/
theorem test_VA2 : after { demo 0 [(0, word 0x15000001)] with cr := List.replicate 32 true } =
    { demo 1 [(0, word 0x15000001)] with
      cr := List.replicate 32 true, ir := word 0x15000001, status := .error .valueTooLong } := by decide

/-- V-A3: relative to the next address. -/
theorem test_VA3 : (after (demo 0 [(0, word 0x15800003)])).pc = str "100" := by decide

/-- V-A5: it reads its own word. -/
theorem test_VA5 : (after { demo 0 [(0, word 0x18000000)] with ac := str "101" }).ac = str "11000000000000000000000000101" := by
  decide

/-- V-A8: `ε` reads as 0. -/
theorem test_VA8 : (after { demo 0 [(0, word 0x18000007), (7, [])] with ac := str "101" }).ac = str "101" := by decide

/-- V-A10: the cell is rewritten in normalised form. -/
theorem test_VA10 : (after (demo 0 [(0, word 0x1C050003), (5, str "11")])).mem.read config 5 = str "100" := by decide

/-- V-A11. -/
theorem test_VA11 : (after { demo 0 [(0, word 0x1C050000), (5, List.replicate 32 true)] with ac := str "1" }).mem.read config 5 =
    List.replicate 32 true := by decide

/-! ## The host's operations -/

/-- V-L1. -/
theorem test_VL1 : (loadProgram config ((List.range 9).map word) State.reset).status = .error .addressNotFound ∧
    (loadProgram config ((List.range 9).map word) State.reset).state = demo 0 ((List.range 8).map fun a => (a, word a)) := by
  decide

/-- V-L2. -/
theorem test_VL2 : loadProgram config [word 1, List.replicate 33 true, word 2] State.reset =
    .raised .valueTooLong (demo 0 [(0, word 1)]) := by decide

/-- S4, V-L4. -/
theorem test_reads : readRegister config "SP" false State.reset = .error .registerNotFound ∧
    readRegister config "PC" true (demo 0 []) = .int 0 ∧ readMemory config 8 false State.reset = .error .addressNotFound := by
  decide

theorem test_load_text_refused : loadText config [['0', '2']] State.reset = .refused .nonBinaryLine := by rfl

/-! ## Witnesses: values that meet the hypotheses of the statements, clause by clause, at the ends of their ranges -/

/-- Eight one-word instructions and a prefix word, cell by cell. -/
def full : State :=
  demo 0 [(0, word 0x0000002A), (1, word 0x04800007), (2, word 0x08070003), (3, word 0x0C030005), (4, word 0x10060003),
    (5, word 0x15000001), (6, word 0x18000007), (7, word 0x1C050003)]

theorem full_inv : full.Inv config := inv_of_machineState (by decide)

theorem reset_inv : State.reset.Inv config := inv_of_machineState (by decide)

/-- A prefix word's operand bits before a continuation word at PC, and PC at the last cell. -/
def lastCell (w : Bits) : State := demo 7 [(7, w)]

theorem lastCell_inv_constant : (lastCell (word 0x000001FF)).Inv config := inv_of_machineState (by decide)

theorem lastCell_inv_raw : (lastCell (word 0x0800FFFF)).Inv config := inv_of_machineState (by decide)

theorem witness_FromIntIsPaddedExpansion : (1 : Nat) ≠ 0 ∧ 0 < 1 := by decide

theorem witness_OneWordInstructionsRoundTrip :
    config.Valid ∧ (Instr.moveMemoryRegister (natBits 10 1023) (natBits 16 65535)).OneWord config ∧
      (Instr.prefixWord (natBits 26 0)).OneWord config := ⟨config_valid, by decide, by decide⟩

theorem witness_ContinuedInstructionsRoundTrip :
    config.Valid ∧ (Instr.moveMemoryConstant (natBits 10 1023) (natBits 16 0 ++ List.replicate 52 true)).WellFormed config ∧
      (Instr.moveMemoryConstant (natBits 10 1023) (natBits 16 0)).operation? ≠ none :=
  ⟨config_valid, by decide +kernel, by decide⟩

theorem witness_DecodedWordIsItsEncoding :
    config.Valid ∧ decodeWord config (word 0xFFFFFFFF) = .instr (.prefixWord (natBits 26 (2 ^ 26 - 1))) :=
  ⟨config_valid, by decide⟩

/-- The bounds, and one store of each kind that reaches neither the register IR nor the cell 7. -/
theorem witness_StoredValueIsRead :
    full.Inv config ∧ (List.replicate 32 true).length ≤ 32 ∧ 2 ^ 32 - 1 < 2 ^ 32 ∧ 7 < 8 ∧
      (RegName.PC ≠ .IR ∧ storeReg config .PC (.int 1) full = .ok () (full.setReg .PC [true])) ∧
      ((0 : Nat) ≠ 7 ∧ memWrite config 0 (.bits []) full = .ok () { full with mem := full.mem.write config 0 [] }) :=
  ⟨full_inv, by decide, by decide, by decide, by decide, by decide⟩

theorem witness_MemReadReturnsTheCell : 7 < config.N ∧ ¬ 8 < config.N := by decide

theorem witness_FailingStoreChangesNothing :
    32 < (Value.bits (List.replicate 33 false)).normalize.length ∧ 32 < (Value.int (2 ^ 32)).normalize.length ∧ 8 ≤ 8 ∧ 7 < 8 := by
  decide

theorem witness_MoveRegisterConstantCompletes :
    config.regNames[toInt (natBits 3 4)]? = some .IR ∧ toInt (List.replicate 32 true) < 2 ^ 32 := by decide

theorem witness_MoveRegisterMemoryCompletes :
    full.Inv config ∧ config.regNames[toInt (natBits 3 3)]? = some .PC ∧ toInt (natBits 23 7) < 8 :=
  ⟨full_inv, by decide, by decide⟩

theorem witness_MoveMemoryConstantCompletes :
    full.Inv config ∧ toInt (natBits 10 7) < 8 ∧ (List.replicate 32 true).length ≤ 32 := ⟨full_inv, by decide, by decide⟩

theorem witness_MoveMemoryMemoryCompletes :
    full.Inv config ∧ toInt (natBits 10 7) < 8 ∧ toInt (natBits 16 7) < 8 := ⟨full_inv, by decide, by decide⟩

theorem witness_MoveMemoryRegisterCompletes :
    full.Inv config ∧ toInt (natBits 10 7) < 8 ∧ config.regNames[toInt (natBits 16 4)]? = some .IR :=
  ⟨full_inv, by decide, by decide⟩

theorem witness_AddRegisterConstantCompletes :
    config.regNames[toInt (natBits 3 3)]? = some .PC ∧ toInt (full.reg .PC) + toInt (List.replicate 32 true) < 2 ^ 32 := by
  decide

theorem witness_AddRegisterMemoryCompletes :
    config.regNames[toInt (natBits 3 0)]? = some .AC ∧ toInt (natBits 23 7) < 8 ∧
      toInt (full.mem.read config (toInt (natBits 23 7))) + toInt (full.reg .AC) < 2 ^ 32 := by decide

theorem witness_AddMemoryRegisterCompletes :
    full.Inv config ∧ toInt (natBits 10 7) < 8 ∧ config.regNames[toInt (natBits 16 3)]? = some .PC ∧
      toInt (full.mem.read config (toInt (natBits 10 7))) + toInt (full.reg .PC) < 2 ^ 32 :=
  ⟨full_inv, by decide, by decide, by decide⟩

theorem witness_PrefixWordRunsTheExtendedInstruction :
    full.Inv config ∧ (natBits 26 1).length = 26 ∧
      decode config (full.image config) =
        .instr (.moveRegisterConstant (natBits 3 0) (natBits 23 42)) ((full.image config).drop 1) :=
  ⟨full_inv, by decide, by decide⟩

/-- V-M4's words, its continuation word in the last cell. -/
theorem witness_PrefixWordCompletesRegisterConstant :
    (lastCell (word 0x000001FF)).Inv config ∧ (str "01011111111111111111111111").length = 26 ∧
      toInt (lastCell (word 0x000001FF)).pc < 8 ∧
      decodeWord config ((lastCell (word 0x000001FF)).mem.read config (toInt (lastCell (word 0x000001FF)).pc)) =
        .instr (.moveRegisterConstant (natBits 3 0) (natBits 23 511)) ∧
      config.regNames[toInt ((str "01011111111111111111111111").take 3)]? = some .CR ∧
      toInt ((str "01011111111111111111111111").drop 3 ++ strip0 (natBits 3 0 ++ natBits 23 511)) < 2 ^ 32 :=
  ⟨lastCell_inv_constant, by decide, by decide, by decide, by decide, by decide⟩

theorem witness_PrefixWordCompletesMemoryConstant :
    (lastCell (word 0x0800FFFF)).Inv config ∧ (str "00000001110000000010000000").length = 26 ∧
      toInt (lastCell (word 0x0800FFFF)).pc < 8 ∧
      decodeWord config ((lastCell (word 0x0800FFFF)).mem.read config (toInt (lastCell (word 0x0800FFFF)).pc)) =
        .instr (.moveMemoryConstant (natBits 10 0) (natBits 16 65535)) ∧
      toInt ((str "00000001110000000010000000").take 10) < 8 ∧ (strip0 (natBits 10 0 ++ natBits 16 65535)).length ≤ 16 :=
  ⟨lastCell_inv_raw, by decide, by decide, by decide, by decide, by decide⟩

theorem witness_AnalyzeIsTheSpecsRecursion :
    (str "101").length ≠ 32 ∧ ((word 0xF8000000).length = 32 ∧ toInt ((word 0xF8000000).take 6) ≠ 63) ∧
      ((word 0xFC000000).length = 32 ∧ toInt ((word 0xFC000000).take 6) = 63) ∧
      analyze config 8 (word 0xFC000001) full = .ok (0, natBits 26 1 ++ str "101010") (full.fetched config 1) := by decide

theorem witness_CombinedFieldIsBounded :
    config.Valid ∧ full.Inv config ∧ toInt full.pc ≤ config.N ∧
      analyze config config.N (word 0xFC000001) full = .ok (0, natBits 26 1 ++ str "101010") (full.fetched config 1) :=
  ⟨config_valid, full_inv, by decide, by decide⟩

theorem witness_RegisterOperationsFrame :
    Instr.moveRegisterConstant (natBits 3 0) (natBits 23 1) ∈
        [Instr.moveRegisterConstant (natBits 3 0) (natBits 23 1), .moveRegisterMemory (natBits 3 0) (natBits 23 1),
          .addRegisterConstant (natBits 3 0) (natBits 23 1), .addRegisterMemory (natBits 3 0) (natBits 23 1)] ∧
      (∃ t, exec (.moveRegisterConstant (natBits 3 0) (natBits 23 1)) full = .next t ∧ t.status = .ok) ∧
      config.regNames[toInt (natBits 3 0)]? ≠ some .DR := ⟨by decide, ⟨_, rfl, by decide⟩, by decide⟩

theorem witness_MemoryOperationsFrame :
    full.Inv config ∧
      Instr.moveMemoryConstant (natBits 10 7) (natBits 16 1) ∈
        [Instr.moveMemoryConstant (natBits 10 7) (natBits 16 1), .moveMemoryMemory (natBits 10 7) (natBits 16 1),
          .moveMemoryRegister (natBits 10 7) (natBits 16 1), .addMemoryRegister (natBits 10 7) (natBits 16 1)] ∧
      (∃ t, exec (.moveMemoryConstant (natBits 10 7) (natBits 16 1)) full = .next t ∧ t.status = .ok) ∧
      (6 : Nat) ≠ address (natBits 10 7) := ⟨full_inv, by decide, ⟨_, rfl, by decide⟩, by decide⟩

theorem witness_PrefixWordFrame :
    full.Inv config ∧ (natBits 26 1).length = 26 ∧
      ∃ t, exec (.prefixWord (natBits 26 1)) full = .next t ∧ t.status = .ok := ⟨full_inv, by decide, ⟨_, rfl, by decide⟩⟩

theorem witness_FailingOperationChangesNothing :
    (Instr.moveMemoryConstant (natBits 10 8) (natBits 16 0)).operation? ≠ none ∧
      ∃ t, exec (.moveMemoryConstant (natBits 10 8) (natBits 16 0)) full = .next t ∧ t.status ≠ .ok :=
  ⟨by decide, ⟨_, rfl, by decide⟩⟩

theorem witness_OperationsReportTheirFirstError : full.Inv config := full_inv

theorem witness_StepRunsTheDecodedInstruction :
    full.Inv config ∧ toInt full.pc < 8 ∧
      decodeWord config (full.mem.read config (toInt full.pc)) = .instr (.moveRegisterConstant (natBits 3 0) (natBits 23 42)) :=
  ⟨full_inv, by decide, by decide⟩

/-- Both clauses: an instruction, and each way in which words make none. -/
theorem witness_StepRunsTheMemoryImage :
    (full.Inv config ∧ decode config (full.image config) =
      .instr (.moveRegisterConstant (natBits 3 0) (natBits 23 42)) ((full.image config).drop 1)) ∧
    ((demo 7 [(7, word 0xFC000000)]).Inv config ∧
      decode config ((demo 7 [(7, word 0xFC000000)]).image config) = .error .wordsEnd []) ∧
    ((demo 7 []).Inv config ∧ decode config ((demo 7 []).image config) = .error .malformed []) ∧
    ((demo 7 [(7, word 0xF8000000)]).Inv config ∧
      decode config ((demo 7 [(7, word 0xF8000000)]).image config) = .error (.undefinedOpcode 62) []) :=
  ⟨⟨full_inv, by decide⟩, ⟨inv_of_machineState (by decide), by decide⟩, ⟨inv_of_machineState (by decide), by decide⟩,
    ⟨inv_of_machineState (by decide), by decide⟩⟩

theorem witness_StepKeepsMachineStates : full.Inv config ∧ ∃ t, step full = .next t := ⟨full_inv, ⟨_, rfl⟩⟩

theorem witness_QuiescentStepChangesNothing : (demo 8 []).Quiescent config := by unfold State.Quiescent; decide

theorem witness_HaltIdiomQuiesces :
    (demo 7 [(7, word 0x01800008)]).Inv config ∧ toInt (demo 7 [(7, word 0x01800008)]).pc < 8 ∧
      (demo 7 [(7, word 0x01800008)]).mem.read config (toInt (demo 7 [(7, word 0x01800008)]).pc) = natBits 32 0x01800008 :=
  ⟨inv_of_machineState (by decide), by decide, by decide⟩

theorem witness_NextStepRunsTheStoredWord :
    full.Inv config ∧ toInt full.pc < 8 ∧ toInt (natBits 10 0) = toInt full.pc ∧ toInt (natBits 16 7) < 8 ∧
      decodeWord config (full.mem.read config (toInt (natBits 16 7))) =
        .instr (.addMemoryRegister (natBits 10 5) (natBits 16 3)) ∧
      ∃ t, exec (.moveMemoryMemory (natBits 10 0) (natBits 16 7)) full = .next t :=
  ⟨full_inv, by decide, by decide, by decide, by decide, ⟨_, rfl⟩⟩

/-- A cell that holds the address of the last cell, and a word there. -/
def jumpTable : State := demo 0 [(0, fromInt 7), (7, word 0x1C050003)]

/-- Every clause, at the last cell. -/
theorem witness_WritingPcJumps :
    jumpTable.Inv config ∧ config.regNames[toInt (natBits 3 3)]? = some .PC ∧
    decodeWord config (jumpTable.mem.read config 7) = .instr (.addMemoryRegister (natBits 10 5) (natBits 16 3)) ∧
    (toInt (natBits 23 7) = 7 ∧ ∃ t, exec (.moveRegisterConstant (natBits 3 3) (natBits 23 7)) jumpTable = .next t) ∧
    (toInt (natBits 23 0) < 8 ∧ toInt (jumpTable.mem.read config (toInt (natBits 23 0))) = 7 ∧
      ∃ t, exec (.moveRegisterMemory (natBits 3 3) (natBits 23 0)) jumpTable = .next t) ∧
    (toInt jumpTable.pc + toInt (natBits 23 7) = 7 ∧
      ∃ t, exec (.addRegisterConstant (natBits 3 3) (natBits 23 7)) jumpTable = .next t) ∧
    (toInt jumpTable.pc + toInt (jumpTable.mem.read config (toInt (natBits 23 0))) = 7 ∧
      ∃ t, exec (.addRegisterMemory (natBits 3 3) (natBits 23 0)) jumpTable = .next t) :=
  ⟨inv_of_machineState (by decide), by decide, by decide, ⟨by decide, ⟨_, rfl⟩⟩, ⟨by decide, by decide, ⟨_, rfl⟩⟩,
    ⟨by decide, ⟨_, rfl⟩⟩, ⟨by decide, ⟨_, rfl⟩⟩⟩

/-- Each case: PC, IR, and another register. -/
theorem witness_ExecutionSeesAdvancedPcAndFetchedWord :
    ∀ c ∈ [(natBits 16 3, RegName.PC), (natBits 16 4, .IR), (natBits 16 0, .AC)],
      (demo 7 [(7, word (0x10060000 + toInt c.1))]).Inv config ∧ toInt (demo 7 [(7, word (0x10060000 + toInt c.1))]).pc < 8 ∧
      decodeWord config ((demo 7 [(7, word (0x10060000 + toInt c.1))]).mem.read config 7) =
        .instr (.moveMemoryRegister (natBits 10 6) c.1) ∧
      toInt (natBits 10 6) < 8 ∧ config.regNames[toInt c.1]? = some c.2 := by
  intro c hc
  simp only [List.mem_cons, List.not_mem_nil, or_false] at hc
  rcases hc with rfl | rfl | rfl <;>
    exact ⟨inv_of_machineState (by decide), by decide, by decide, by decide, by decide⟩

theorem witness_LoadProgramStoresTheLines :
    config.Valid ∧ full.Inv config ∧ ((List.range 8).map word).length ≤ config.N ∧
      ∀ l ∈ (List.range 8).map word, l.length ≤ config.W := ⟨config_valid, full_inv, by decide, by decide⟩

/-- The ways to fail: the ninth line, short or of 33 characters, and a line of 33 characters in the last cell. -/
theorem witness_LoadProgramStopsAtTheFirstFailure :
    config.Valid ∧ full.Inv config ∧
    (((List.range 8).map word).length ≤ config.N ∧ (∀ l ∈ (List.range 8).map word, l.length ≤ config.W) ∧
      ((List.range 8).map word).length = config.N) ∧
    (((List.range 8).map word).length = config.N ∧ config.W < (List.replicate 33 true).length) ∧
    (((List.range 7).map word).length ≤ config.N ∧ (∀ l ∈ (List.range 7).map word, l.length ≤ config.W) ∧
      config.W < (List.replicate 33 true).length) :=
  ⟨config_valid, full_inv, by decide, by decide, by decide⟩

theorem witness_InspectionChangesNothing :
    7 < 8 ∧ ((-1 : Int) < 0 ∨ (8 : Int) ≤ -1) ∧ ((8 : Int) < 0 ∨ (8 : Int) ≤ 8) ∧
      ("IR", full.ir) ∈ [("AC", full.ac), ("DR", full.dr), ("CR", full.cr), ("PC", full.pc), ("IR", full.ir)] ∧
      "SP" ∉ ["AC", "DR", "CR", "PC", "IR"] := by decide

theorem witness_EverySessionKeepsMachineStates : config.Valid ∧ full.Inv config := ⟨config_valid, full_inv⟩

theorem witness_EveryMachineStateIsAPowerOnState : full.Inv config := full_inv

theorem witness_PlacedWordIsTheFirstInstruction :
    2 ^ 32 - 1 < 2 ^ 32 ∧ decodeTableWord 32 (2 ^ 32 - 1) = some (.prefixWord (natBits 26 (2 ^ 26 - 1))) := by decide

end Sys2Proof.Tests
end

