-- ==== Sys2Proof/Proofs/Scope.lean ====
section
/-! PROOFS. `00_scope.md`: the value of a bit string (R8), its expansion (R9) and its stripping (R10). -/

namespace Sys2Proof

/-! ## The positional value -/

theorem toInt_eq_sum (s : Bits) :
    toInt s = ∑ i : Fin s.length, s[i].toNat * 2 ^ (s.length - 1 - i.val) := by
  induction s with
  | nil => rfl
  | cons b t ih =>
    have hexp (i : Fin t.length) : t.length - (i.val + 1) = t.length - 1 - i.val := by omega
    simp [Fin.sum_univ_succ, ih, hexp]

/-- Settles O1: the positional sum, by induction on the string, with the laws of `ε` and of leading zeros. -/
theorem toIntIsPositionalValue : Obligations.ToIntIsPositionalValue :=
  ⟨toInt_eq_sum, toInt_nil, toInt_zeros_append⟩

/-! ## The padded expansion -/

/-- Without a minimum width nothing is padded. -/
theorem fromInt_eq_expansion (v : Nat) : fromInt v = expansion v := by simp [fromInt, padLeft]

theorem fromInt_eq_zeros_append (v k : Nat) :
    fromInt v k = List.replicate (k - (fromInt v).length) false ++ fromInt v := by
  rw [fromInt_eq_expansion, fromInt, padLeft]

/-- The length of R9's expansion, with D2's one character for 0: `Nat.log2 0` is 0. -/
theorem expansion_length_eq_max (v : Nat) :
    (expansion v).length = max 1 (if v = 0 then 0 else Nat.log2 v + 1) := by
  rw [expansion_length]
  split
  case isTrue hv => simp [hv]
  case isFalse => omega

theorem fromInt_head_of_ne_zero {v : Nat} (hv : v ≠ 0) : (fromInt v).head? = some true := by
  rw [fromInt_eq_expansion, expansion_head, decide_eq_true hv]

/-- Settles O2: one law of `fromInt` for each clause of R9, 0 being D2's `0`. -/
theorem fromIntIsPaddedExpansion : Obligations.FromIntIsPaddedExpansion := by
  intro v k
  have hlen : (fromInt v k).length = max k (max 1 (if v = 0 then 0 else Nat.log2 v + 1)) := by
    rw [fromInt, padLeft_length, expansion_length_eq_max]
  exact ⟨toInt_fromInt v k, hlen, fromInt_head_of_ne_zero, rfl, fromInt_eq_zeros_append v k,
    fun _ => fromInt_length_le_iff⟩

/-! ## The stripped string -/

/-- A string of zeros leaves `ε` (D5). -/
@[simp] theorem strip0_zeros (k : Nat) : strip0 (List.replicate k false) = [] := by
  simpa using strip0_zeros_append k []

/-- Settles O3: zeros in front are stripped whatever follows them, and `strip0_spec` puts them back. -/
theorem stripDropsLeadingZeros : Obligations.StripDropsLeadingZeros := by
  refine ⟨fun k t => ?_, strip0_zeros, fun s => ⟨toInt_strip0 s, _, strip0_spec s⟩⟩
  rw [strip0_zeros_append, strip0_true]

end Sys2Proof
end

