-- ==== Sys2Proof/Proofs/State.lean ====
section
/-! PROOFS. `10_state.md`: what stores leave to be read (R16 to R18), what operations leave unchanged (R26), writes of PC
(R21), and the states the machine stays in (R12, R13, R28). -/

namespace Sys2Proof.Machine

variable {cfg : Config} {s t : State}

/-! ## What a store leaves to be read -/

theorem storeReg_reads_back (r : RegName) (v : Value) (h : v.normalize.length ≤ cfg.W) :
    ∃ t, storeReg cfg r v s = .ok () t ∧ t.reg r = v.normalize :=
  ⟨_, storeReg_ok h, setReg_reg_self s r _⟩

theorem storeReg_reg_ne {r r' : RegName} {v : Value} (hne : r' ≠ r) (h : storeReg cfg r' v s = .ok () t) :
    t.reg r = s.reg r := by
  obtain ⟨-, rfl⟩ := storeReg_eq_ok h
  exact setReg_reg_ne s _ hne.symm

theorem storeReg_mem {r : RegName} {v : Value} (h : storeReg cfg r v s = .ok () t) : t.mem = s.mem := by
  obtain ⟨-, rfl⟩ := storeReg_eq_ok h
  exact setReg_mem s r _

theorem memWrite_reads_back (hm : s.mem.wf cfg) {a : Nat} (v : Value) (ha : a < cfg.N) (h : v.normalize.length ≤ cfg.W) :
    ∃ t, memWrite cfg a v s = .ok () t ∧ memRead cfg a t = .ok v.normalize t :=
  ⟨_, memWrite_ok ha h, by rw [memRead_ok ha, read_write hm.1, if_pos rfl]⟩

theorem memWrite_read_ne (hm : s.mem.wf cfg) {a a' : Nat} {v : Value} (hne : a' ≠ a)
    (h : memWrite cfg a' v s = .ok () t) : t.mem.read cfg a = s.mem.read cfg a := by
  obtain ⟨-, -, rfl⟩ := memWrite_eq_ok h
  rw [read_write hm.1, if_neg hne.symm]

theorem memWrite_reg {a : Nat} {v : Value} (h : memWrite cfg a v s = .ok () t) (r : RegName) : t.reg r = s.reg r := by
  obtain ⟨-, -, rfl⟩ := memWrite_eq_ok h
  exact withMem_reg s _ r

/-- A natural is stored exactly where it is below `2^W` (R17). -/
theorem int_fits_iff (hv : cfg.Valid) {v : Nat} : (Value.int v).normalize.length ≤ cfg.W ↔ v < 2 ^ cfg.W :=
  fromInt_length_le_iff hv.word_pos

/-- Settles O9: each clause is one rule of a store; the one about a natural's value is `toInt_fromInt`. -/
theorem storedValueIsRead : Obligations.StoredValueIsRead := by
  intro s b v hs
  have hnat (hv : v < 2 ^ 32) : (Value.int v).normalize.length ≤ config.W := (int_fits_iff config_valid).2 hv
  refine ⟨fun r => ⟨fun hb => storeReg_reads_back r (.bits b) hb, fun hv => ?_,
      fun r' x t hne h => storeReg_reg_ne hne h, fun a' x t h => memWrite_reg h r⟩,
    fun a ha => ⟨fun hb => memWrite_reads_back hs.mem_wf (.bits b) ha hb,
      fun hv => memWrite_reads_back hs.mem_wf (.int v) ha (hnat hv), fun a' x t hne h => ?_, fun r' x t h => ?_⟩⟩
  · obtain ⟨t, hstore, hread⟩ := storeReg_reads_back (s := s) r _ (hnat hv)
    exact ⟨t, hstore, hread, by rw [hread, normalize_int, toInt_fromInt]⟩
  · rw [memRead_ok ha, memWrite_read_ne hs.mem_wf hne h]
  · rw [memRead_ok ha, storeReg_mem h]

/-- Settles O11: the failing branches of the two stores, and `int_fits_iff` for the bound of a natural. -/
theorem failingStoreChangesNothing : Obligations.FailingStoreChangesNothing := by
  intro s x
  refine ⟨fun r hx => storeReg_too_long hx, fun a ha => memWrite_not_found ha,
    fun a ha hx => memWrite_too_long ha hx, fun v => ?_⟩
  calc config.W < (Value.int v).normalize.length
    _ ↔ ¬ (Value.int v).normalize.length ≤ config.W := not_le.symm
    _ ↔ ¬ v < 2 ^ config.W := not_congr (int_fits_iff config_valid)
    _ ↔ 2 ^ config.W ≤ v := not_lt

/-! ## What an operation leaves unchanged -/

/-- A register operation changes no register but the one its first sub-field names, and no cell. -/
theorem effect_register_frame {op : Operation} {first : Bits} {x : Result Unit} (hx : Effect cfg op first s x)
    (hop : writesRegister op = true) :
    (∀ m, cfg.regNames[toInt first]? ≠ some m → x.state.reg m = s.reg m) ∧ x.state.mem = s.mem := by
  cases hx with
  | raised e => exact ⟨fun _ _ => rfl, rfl⟩
  | register r b _ hr =>
    refine ⟨fun m hm => setReg_reg_ne s b ?_, setReg_mem s r b⟩
    rintro rfl
    exact hm hr
  | cell b hcell => simp [hop] at hcell

/-- A memory operation changes no register, and no cell but the one its first sub-field names. -/
theorem effect_memory_frame {op : Operation} {first : Bits} {x : Result Unit} (hx : Effect cfg op first s x)
    (hop : writesRegister op = false) (hm : s.mem.wf cfg) :
    (∀ m, x.state.reg m = s.reg m) ∧ ∀ b, b ≠ toInt first → x.state.mem.read cfg b = s.mem.read cfg b := by
  cases hx with
  | raised e => exact ⟨fun _ => rfl, fun _ _ => rfl⟩
  | register r b hreg => simp [hop] at hreg
  | cell v => exact ⟨withMem_reg s _, fun b hb => (read_write hm.1 _ b v).trans (if_neg hb)⟩

theorem finish_eq_next {x : Result Unit} (h : finish x = .next t) : t = x.state.report x.status := by
  cases h; rfl

/-- The state an operation answers is one of its effects, reported. -/
theorem exec_effect {i : Instr} {op : Operation} (hop : i.operation? = some op) (h : exec i s = .next t) :
    ∃ x, Effect config op i.firstField s x ∧ t = x.state.report x.status := by
  rw [exec_operation hop] at h
  exact ⟨_, operate_effect config op _ _ s, finish_eq_next h⟩

theorem exec_register_frame {i : Instr} {op : Operation} (hop : i.operation? = some op) (hw : writesRegister op = true)
    (h : exec i s = .next t) :
    (∀ m, config.regNames[toInt i.firstField]? ≠ some m → t.reg m = s.reg m) ∧ t.mem = s.mem := by
  obtain ⟨x, hx, rfl⟩ := exec_effect hop h
  simpa using effect_register_frame hx hw

theorem exec_memory_frame {i : Instr} {op : Operation} (hop : i.operation? = some op) (hw : writesRegister op = false)
    (hm : s.mem.wf config) (h : exec i s = .next t) :
    (∀ m, t.reg m = s.reg m) ∧ ∀ b, b ≠ toInt i.firstField → t.mem.read config b = s.mem.read config b := by
  obtain ⟨x, hx, rfl⟩ := exec_effect hop h
  simpa using effect_memory_frame hx hw hm

/-- Settles O25: each of the four is an operation whose destination is a register. -/
theorem registerOperationsFrame : Obligations.RegisterOperationsFrame := by
  intro r f s t i hi h
  obtain ⟨op, hop, hw, hfirst⟩ : ∃ op, i.operation? = some op ∧ writesRegister op = true ∧ i.firstField = r := by
    simp only [List.mem_cons, List.not_mem_nil, or_false] at hi
    rcases hi with rfl | rfl | rfl | rfl <;> exact ⟨_, rfl, rfl, rfl⟩
  obtain ⟨hreg, hmem⟩ := exec_register_frame hop hw h
  rw [hfirst] at hreg
  exact ⟨hreg, fun b => by rw [hmem]⟩

/-- Settles O26: each of the four is an operation whose destination is a cell. -/
theorem memoryOperationsFrame : Obligations.MemoryOperationsFrame := by
  intro a f s t hs i hi h
  obtain ⟨op, hop, hw, hfirst⟩ : ∃ op, i.operation? = some op ∧ writesRegister op = false ∧ i.firstField = a := by
    simp only [List.mem_cons, List.not_mem_nil, or_false] at hi
    rcases hi with rfl | rfl | rfl | rfl <;> exact ⟨_, rfl, rfl, rfl⟩
  have hframe := exec_memory_frame hop hw hs.mem_wf h
  rwa [hfirst] at hframe

/-! ## A register operation whose operands resolve is its one store -/

theorem exec_moveRegisterConstant {r c : Bits} {n : RegName} (hr : config.regNames[toInt r]? = some n) :
    exec (.moveRegisterConstant r c) s = finish (storeReg config n (.int (toInt c)) s) := by
  rw [exec_operation rfl, operate, moveRegisterConstant, Instr.firstField, resolveReg_ok hr]; rfl

theorem exec_moveRegisterMemory {r a : Bits} {n : RegName} (hr : config.regNames[toInt r]? = some n)
    (ha : toInt a < config.N) :
    exec (.moveRegisterMemory r a) s = finish (storeReg config n (.bits (s.mem.read config (toInt a))) s) := by
  rw [exec_operation rfl, operate, moveRegisterMemory, Instr.firstField, resolveReg_ok hr, bind_ok, Instr.secondField,
    address_eq, memRead_ok ha, bind_ok]

theorem exec_addRegisterConstant {r c : Bits} {n : RegName} (hr : config.regNames[toInt r]? = some n) :
    exec (.addRegisterConstant r c) s = finish (storeReg config n (.int (toInt (s.reg n) + toInt c)) s) := by
  rw [exec_operation rfl, operate, addRegisterConstant, Instr.firstField, resolveReg_ok hr]; rfl

theorem exec_addRegisterMemory {r a : Bits} {n : RegName} (hr : config.regNames[toInt r]? = some n)
    (ha : toInt a < config.N) :
    exec (.addRegisterMemory r a) s =
      finish (storeReg config n (.int (toInt (s.mem.read config (toInt a)) + toInt (s.reg n))) s) := by
  rw [exec_operation rfl, operate, addRegisterMemory, Instr.firstField, resolveReg_ok hr, bind_ok, Instr.secondField,
    address_eq, memRead_ok ha]; rfl

/-! ## Writing PC jumps -/

/-- A step from a cell whose word decodes runs that instruction after one fetch (R58, R65). -/
theorem step_eq_exec (hm : s.mem.wf config) (hp : toInt s.pc < config.N) {j : Instr}
    (hd : decodeWord config (s.mem.read config (toInt s.pc)) = .instr j) :
    step s = exec j (s.afterFetch config) := by
  rw [step, fetch_ok config_valid (read_fits config_valid hm _) hp]
  simp only [hd]

/-- The step after a store of `v` to PC fetches the cell at `v`'s value (R108). -/
theorem step_after_storeReg_PC (hm : s.mem.wf config) {v : Value} {p : Nat} {j : Instr}
    (hfits : v.normalize.length ≤ config.W) (hval : toInt v.normalize = p) (hp : p < config.N)
    (hd : decodeWord config (s.mem.read config p) = .instr j) (h : finish (storeReg config .PC v s) = .next t) :
    step t = exec j { t with ir := s.mem.read config p, pc := fromInt (p + 1) } := by
  subst hval
  rw [storeReg_ok hfits] at h
  cases h
  exact step_eq_exec (s := (s.setReg .PC v.normalize).report .ok) hm hp hd

/-- A number that a cell has as its address is stored without error (R23). -/
theorem step_after_storeReg_PC_int (hm : s.mem.wf config) {p : Nat} {j : Instr} (hp : p < config.N)
    (hd : decodeWord config (s.mem.read config p) = .instr j)
    (h : finish (storeReg config .PC (.int p) s) = .next t) :
    step t = exec j { t with ir := s.mem.read config p, pc := fromInt (p + 1) } :=
  step_after_storeReg_PC hm (v := .int p) (config_valid.fromInt_fits hp.le) (toInt_fromInt p 0) hp hd h

/-- Settles O39: each operation is a store to PC, of a number or of a cell's string, and the next step fetches there. -/
theorem writingPcJumps : Obligations.WritingPcJumps := by
  intro s t r f j hs hr
  refine ⟨fun hp hd h => ?_, fun hf hp hd h => ?_, fun hp hd h => ?_, fun hf hp hd h => ?_⟩
  · rw [exec_moveRegisterConstant hr] at h
    exact step_after_storeReg_PC_int hs.mem_wf hp hd h
  · rw [exec_moveRegisterMemory hr hf] at h
    exact step_after_storeReg_PC hs.mem_wf (v := .bits _) (read_fits config_valid hs.mem_wf _) rfl hp hd h
  · rw [exec_addRegisterConstant hr] at h
    exact step_after_storeReg_PC_int hs.mem_wf hp hd h
  · rw [exec_addRegisterMemory hr hf, Nat.add_comm] at h
    exact step_after_storeReg_PC_int hs.mem_wf hp hd h

/-! ## Every step keeps the machine's states -/

theorem bind_inv {α β : Type} {x : Result α} {f : α → State → Result β} (hx : x.state.Inv cfg)
    (hf : ∀ a t, t.Inv cfg → (f a t).state.Inv cfg) : (x.bind f).state.Inv cfg := by
  cases x with
  | ok a t => exact hf a t hx
  | raised e t => exact hx

theorem fetch_inv (hv : cfg.Valid) (h : s.Inv cfg) : (fetch cfg s).state.Inv cfg := by
  rcases lt_or_ge (toInt s.pc) cfg.N with hp | hp
  · rw [fetch_ok hv (read_fits hv h.mem_wf _) hp]
    exact fetched_inv hv h (n := 1) hp
  · rw [fetch_not_found hp]
    exact h

/-- A chain of fetches keeps the invariant, wherever it ends (R64). -/
theorem analyze_inv (hv : cfg.Valid) (fuel : Nat) (w : Bits) (h : s.Inv cfg) : (analyze cfg fuel w s).state.Inv cfg := by
  induction fuel generalizing w s with
  | zero => rw [analyze]; split_ifs <;> exact h
  | succ fuel ih =>
    rw [analyze]
    split_ifs
    · exact h
    · exact bind_inv (fetch_inv hv h) fun w2 t ht => bind_inv (ih w2 ht) fun _ _ hu => hu
    · exact h

theorem execute_inv (op : Nat) (F : Bits) (h : s.Inv cfg) : (execute cfg op F s).state.Inv cfg := by
  unfold execute
  split
  · exact effect_inv h (operate_effect cfg _ _ _ s)
  · exact h

theorem continuation_inv (hv : cfg.Valid) (x : Bits) (h : s.Inv cfg) : (continuation cfg x s).state.Inv cfg :=
  bind_inv (fetch_inv hv h) fun w _ ht => bind_inv (analyze_inv hv _ w ht) fun _ _ hu => execute_inv _ _ hu

theorem finish_inv {x : Result Unit} (hx : x.state.Inv cfg) (h : finish x = .next t) : t.Inv cfg :=
  finish_eq_next h ▸ report_inv hx _

/-- Every instruction, a prefix word with whatever follows it included, keeps the machine's states. -/
theorem exec_inv {i : Instr} (hs : s.Inv config) (h : exec i s = .next t) : t.Inv config := by
  cases hop : i.operation? with
  | some op =>
    obtain ⟨x, hx, rfl⟩ := exec_effect hop h
    exact report_inv (effect_inv hs hx) _
  | none =>
    obtain ⟨x, rfl⟩ := operation_none hop
    exact finish_inv (continuation_inv config_valid x hs) h

/-- Settles O33: the fetch keeps the machine's states, and so does the instruction its word decodes to. -/
theorem stepKeepsMachineStates : Obligations.StepKeepsMachineStates := by
  intro s t hs h
  have hfetch := fetch_inv config_valid hs
  unfold step at h
  split at h
  case h_1 e s1 hf =>
    rw [hf] at hfetch
    exact finish_inv hfetch h
  case h_2 w s1 hf =>
    rw [hf] at hfetch
    split at h
    · exact exec_inv hfetch h
    · exact finish_inv hfetch h

end Sys2Proof.Machine
end

