-- ==== Sys2Proof/Proofs/Memory.lean ====
section
/-! PROOFS. `20_memory.md`: the one read of a cell (R30), and a fetch that sees the store of the step before (R39). -/

namespace Sys2Proof.Machine

variable {s t : State}

/-- Settles O10: the two branches of a read. -/
theorem memReadReturnsTheCell : Obligations.MemReadReturnsTheCell :=
  fun _ _ _ => ⟨memRead_ok, fun ha => memRead_not_found (not_lt.1 ha)⟩

/-- Where both addresses name cells, R74 is the one store of the source's string at the destination. -/
theorem exec_moveMemoryMemory {d src : Bits} (hd : toInt d < config.N) (hsrc : toInt src < config.N) :
    exec (.moveMemoryMemory d src) s =
      finish (memWrite config (toInt d) (.bits (s.mem.read config (toInt src))) s) := by
  rw [exec_operation rfl, operate, moveMemoryMemory, Instr.firstField, resolveAddress_ok hd, bind_ok, Instr.secondField,
    address_eq, memRead_ok hsrc, bind_ok]

/-- The step after a store to the cell at PC fetches the string stored: PC is unchanged, and the cell reads back (R29, R37). -/
theorem step_after_memWrite_at_PC (hm : s.mem.wf config) {v : Value} {j : Instr} (hp : toInt s.pc < config.N)
    (hfits : v.normalize.length ≤ config.W) (hj : decodeWord config v.normalize = .instr j)
    (h : finish (memWrite config (toInt s.pc) v s) = .next t) :
    step t = exec j { t with ir := v.normalize, pc := fromInt (toInt s.pc + 1) } := by
  rw [memWrite_ok hp hfits] at h
  cases h
  have hread : (s.mem.write config (toInt s.pc) v.normalize).read config (toInt s.pc) = v.normalize := by
    rw [read_write hm.1, if_pos rfl]
  have hstep := step_eq_exec (s := { s with mem := s.mem.write config (toInt s.pc) v.normalize }.report .ok)
    (write_wf hm hp hfits) hp (hread.symm ▸ hj)
  rwa [State.afterFetch, report_mem, report_pc, hread] at hstep

/-- Settles O38: the copy is a store to the cell at PC, of a string that fits because it came from a cell. -/
theorem nextStepRunsTheStoredWord : Obligations.NextStepRunsTheStoredWord := by
  intro s t d src j hs hp hd hsrc hj h
  rw [exec_moveMemoryMemory (hd.trans_lt hp) hsrc, hd] at h
  exact step_after_memWrite_at_PC hs.mem_wf (v := .bits _) hp (read_fits config_valid hs.mem_wf _) hj h

end Sys2Proof.Machine
end

