-- ==== Sys2Proof/Proofs/Encoding.lean ====
section
/-! PROOFS. `30_encoding.md`: an instruction and its words, in both directions (R42 to R49, R53, R54, R57), the opcode map
(R50), and the words the decoder rejects (R51, R52, R59). -/

namespace Sys2Proof

variable {cfg : Config}

/-! ## An operation is its opcode and its operand field -/

/-- Every constructor rejoins its two sub-fields (R45). -/
theorem fieldRejoins (i : Instr) : Laws.FieldRejoins.Statement i := by
  cases i with
  | moveRegisterConstant r c => exact Laws.FieldRejoins.moveRegisterConstant r c
  | moveRegisterMemory r a => exact Laws.FieldRejoins.moveRegisterMemory r a
  | moveMemoryConstant a c => exact Laws.FieldRejoins.moveMemoryConstant a c
  | moveMemoryMemory d src => exact Laws.FieldRejoins.moveMemoryMemory d src
  | moveMemoryRegister a r => exact Laws.FieldRejoins.moveMemoryRegister a r
  | addRegisterConstant r c => exact Laws.FieldRejoins.addRegisterConstant r c
  | addRegisterMemory r a => exact Laws.FieldRejoins.addRegisterMemory r a
  | addMemoryRegister a r => exact Laws.FieldRejoins.addMemoryRegister a r
  | prefixWord x => exact Laws.FieldRejoins.prefixWord x

theorem instrFirstWidth_of_operation {i : Instr} {op : Operation} (hop : i.operation? = some op) :
    i.firstWidth cfg = op.firstWidth cfg := by
  rw [Instr.firstWidth, hop]

theorem firstField_length_of_ok {i : Instr} (h : i.firstWidthOk cfg = true) :
    i.firstField.length = i.firstWidth cfg :=
  beq_iff_eq.1 h

/-- The split rule undoes the joining of an operation's sub-fields (R45, R46). -/
theorem ofField_field_self {i : Instr} {op : Operation} (hop : i.operation? = some op)
    (h : i.firstWidthOk cfg = true) : Instr.ofField cfg op i.field = i :=
  fieldRejoins i cfg op hop ((firstField_length_of_ok h).trans (instrFirstWidth_of_operation hop))

theorem ofField_firstWidthOk (op : Operation) {F : Bits} (h : op.firstWidth cfg ≤ F.length) :
    (Instr.ofField cfg op F).firstWidthOk cfg = true := by
  rw [Instr.firstWidthOk, instrFirstWidth_of_operation (ofField_operation op F), ofField_firstField,
    List.length_take_of_le h, beq_self_eq_true]

theorem ofField_ne_prefixWord (op : Operation) (F x : Bits) : Instr.ofField cfg op F ≠ .prefixWord x := by
  intro h
  have hop := ofField_operation (cfg := cfg) op F
  rw [h] at hop
  cases hop

@[simp] theorem prefixWord_field (x : Bits) : (Instr.prefixWord x).field = x := List.append_nil x

/-! ## The encoder -/

theorem encode_of_operation {i : Instr} {op : Operation} (hop : i.operation? = some op) :
    encode cfg i = packWords cfg (opcodeOf cfg op) (i.field.take cfg.operandWidth) (i.tailPieces cfg) := by
  rw [encode, hop]

theorem encode_prefixWord (x : Bits) : encode cfg (.prefixWord x) = [packWord cfg cfg.CONT x] := by
  rw [encode, prefixWord_field]; rfl

theorem tailPieces_of_length_le {i : Instr} (h : i.field.length ≤ cfg.operandWidth) : i.tailPieces cfg = [] := by
  rw [Instr.tailPieces, Instr.tail, List.drop_eq_nil_of_le h]; rfl

/-- An operation whose field is one word's has one word (R57). -/
theorem encode_of_operation_of_length_le {i : Instr} {op : Operation} (hop : i.operation? = some op)
    (h : i.field.length ≤ cfg.operandWidth) : encode cfg i = [packWord cfg (opcodeOf cfg op) i.field] := by
  rw [encode_of_operation hop, tailPieces_of_length_le h, List.take_of_length_le h]; rfl

@[simp] theorem packWords_length (op : Nat) (base : Bits) (ps : List Bits) :
    (packWords cfg op base ps).length = ps.length + 1 := by
  induction ps generalizing base with
  | nil => rfl
  | cons p ps ih => simp [packWords, ih]

theorem padLeft_length_of_le {k : Nat} {s : Bits} (h : s.length ≤ k) : (padLeft k s).length = k := by
  rw [padLeft_length, max_eq_left h]

theorem packWords_word_length (hv : cfg.Valid) (op : Nat) {base : Bits} {ps : List Bits}
    (hbase : base.length = cfg.operandWidth) (hps : ∀ p ∈ ps, p.length ≤ cfg.operandWidth) :
    ∀ w ∈ packWords cfg op base ps, w.length = cfg.W := by
  induction ps generalizing base with
  | nil => simpa [packWords] using packWord_length hv hbase
  | cons p ps ih =>
    obtain ⟨hp, hps⟩ := List.forall_mem_cons.1 hps
    exact List.forall_mem_cons.2 ⟨packWord_length hv hbase, ih (padLeft_length_of_le hp) hps⟩

/-! ## Decoding a chain -/

/-- The padding of a piece is stripped, and no more: a piece begins with `1` (R57, R62). -/
theorem combine_padLeft_append {k : Nat} {base p q : Bits} (hp : ∃ t, p = true :: t) :
    combine base (padLeft k p ++ q) = base ++ (p ++ q) := by
  rw [combine, padLeft, List.append_assoc, strip0_zeros_append, strip0_append_of_head hp]

theorem extend_ofField (x : Bits) (op : Operation) (F : Bits) :
    (Instr.ofField cfg op F).extend cfg x = Instr.ofField cfg op (combine x F) := by
  rw [Instr.extend, ofField_operation, ofField_field]

/-- A chain decodes to its operation on the first word's operand field followed by the pieces (R49, R64). -/
theorem decode_packWords (hv : cfg.Valid) (op : Operation) {base : Bits} {ps : List Bits}
    (hbase : base.length = cfg.operandWidth) (hps : ∀ p ∈ ps, p.length ≤ cfg.operandWidth)
    (hhead : ∀ p ∈ ps, ∃ t, p = true :: t) (rest : List Bits) :
    decode cfg (packWords cfg (opcodeOf cfg op) base ps ++ rest) =
      .instr (.ofField cfg op (base ++ ps.flatten)) rest := by
  induction ps generalizing base with
  | nil => simpa [packWords] using decode_of_operation (decodeWord_operation hv op hbase) (by simp)
  | cons p ps ih =>
    obtain ⟨hp, hps⟩ := List.forall_mem_cons.1 hps
    obtain ⟨hhead_p, hhead⟩ := List.forall_mem_cons.1 hhead
    have hrest := ih (padLeft_length_of_le hp) hps hhead
    rw [packWords, List.cons_append, decode_of_prefix (decodeWord_prefix hv hbase), hrest, List.flatten_cons,
      ← combine_padLeft_append hhead_p, ← extend_ofField]

/-- The pieces of a stripped tail put the field together again (R57). -/
theorem take_append_tailPieces {i : Instr} (h : i.tailStripped cfg = true) :
    i.field.take cfg.operandWidth ++ (i.tailPieces cfg).flatten = i.field := by
  rw [Instr.tailPieces, pieces_flatten, beq_iff_eq.1 h]
  exact List.take_append_drop _ _

/-- Settles O6: an operation's words are a chain, which `decode_packWords` decodes, and the stripped tail is its pieces. -/
theorem continuedInstructionsRoundTrip : Obligations.ContinuedInstructionsRoundTrip := by
  intro cfg hv i ⟨hwidth, hlong, hstripped, hcut, hfits⟩ hop
  obtain ⟨op, hop⟩ := Option.ne_none_iff_exists'.1 hop
  have hbase : (i.field.take cfg.operandWidth).length = cfg.operandWidth :=
    List.length_take_of_le (of_decide_eq_true hlong)
  have hps : ∀ p ∈ i.tailPieces cfg, p.length ≤ cfg.operandWidth := fun p hp =>
    of_decide_eq_true (List.all_eq_true.1 hcut p hp)
  rw [encode_of_operation hop]
  refine ⟨?_, packWords_word_length hv _ hbase hps, fun rest => ?_⟩
  · rw [packWords_length]
    exact of_decide_eq_true hfits
  · rw [decode_packWords hv op hbase hps (pieces_head _ _), take_append_tailPieces hstripped,
      ofField_field_self hop hwidth]

/-! ## One word -/

/-- Settles O5: the one word is packed from the field, with the marker for a prefix word, and the decoder unpacks it. -/
theorem oneWordInstructionsRoundTrip : Obligations.OneWordInstructionsRoundTrip := by
  intro cfg hv i ⟨hwidth, hlen⟩
  cases hop : i.operation? with
  | some op =>
    refine ⟨_, encode_of_operation_of_length_le hop hlen.le, packWord_length hv hlen, ?_⟩
    rw [decodeWord_operation hv op hlen, ofField_field_self hop hwidth]
  | none =>
    obtain ⟨x, rfl⟩ := operation_none hop
    rw [prefixWord_field] at hlen
    exact ⟨_, encode_prefixWord x, packWord_length hv hlen, decodeWord_prefix hv hlen⟩

theorem operandField_length {w : Bits} (hw : w.length = cfg.W) : (operandField cfg w).length = cfg.operandWidth := by
  rw [operandField, List.length_drop, hw, Config.operandWidth]

theorem opcodeField_length (hv : cfg.Valid) {w : Bits} (hw : w.length = cfg.W) : (opcodeField cfg w).length = cfg.O :=
  List.length_take_of_le (hw ▸ hv.opcode_lt_word.le)

/-- A word is its opcode field, which the opcode's number determines, and its operand field (R43, R44, R53). -/
theorem packWord_fields (hv : cfg.Valid) {w : Bits} (hw : w.length = cfg.W) :
    packWord cfg (toInt (opcodeField cfg w)) (operandField cfg w) = w := by
  have hop : natBits cfg.O (toInt (opcodeField cfg w)) = opcodeField cfg w := by
    rw [← opcodeField_length hv hw]
    exact natBits_toInt _
  rw [packWord, hop]
  exact List.take_append_drop _ _

/-- Settles O7: a word that decodes is a prefix word or one of an operation, and is packed again from its two fields. -/
theorem decodedWordIsItsEncoding : Obligations.DecodedWordIsItsEncoding := by
  intro cfg hv w i h
  rcases decodeWord_cases (cfg := cfg) w with
    ⟨-, hd⟩ | ⟨hw, hmarker, hd⟩ | ⟨hw, -, op, hlookup, hd⟩ | ⟨-, -, -, hd⟩ <;> rw [hd] at h <;> cases h
  · have hlen := operandField_length hw
    refine ⟨⟨beq_iff_eq.2 hlen, (prefixWord_field _).symm ▸ hlen⟩, ?_⟩
    rw [encode_prefixWord, ← hmarker, packWord_fields hv hw]
  · have hlen := operandField_length hw
    have hfield := ofField_field (cfg := cfg) op (operandField cfg w)
    refine ⟨⟨ofField_firstWidthOk op (hlen ▸ firstWidth_le hv op), hfield.symm ▸ hlen⟩, ?_⟩
    rw [encode_of_operation_of_length_le (ofField_operation op _) (hfield.symm ▸ hlen.le), hfield,
      opcodeOf_of_lookup hv hlookup, packWord_fields hv hw]

/-! ## Which words are rejected, and how -/

theorem decodeWord_eq_malformed_iff {w : Bits} : decodeWord cfg w = .error .malformed ↔ w.length ≠ cfg.W := by
  rcases decodeWord_cases (cfg := cfg) w with
    ⟨hw, hd⟩ | ⟨hw, -, hd⟩ | ⟨hw, -, op, -, hd⟩ | ⟨hw, -, -, hd⟩ <;> simp [hd, hw]

theorem decodeWord_eq_undefinedOpcode_iff {w : Bits} {k : Nat} :
    decodeWord cfg w = .error (.undefinedOpcode k) ↔
      w.length = cfg.W ∧ k = toInt (opcodeField cfg w) ∧ k ≠ cfg.CONT ∧ cfg.opcodeMap.lookup k = none := by
  rcases decodeWord_cases (cfg := cfg) w with
    ⟨hw, hd⟩ | ⟨-, hmarker, hd⟩ | ⟨-, -, op, hlookup, hd⟩ | ⟨hw, hmarker, hlookup, hd⟩ <;> rw [hd]
  · exact ⟨by rintro ⟨⟩, fun ⟨hlen, _⟩ => absurd hlen hw⟩
  · exact ⟨by rintro ⟨⟩, fun ⟨_, hk, hne, _⟩ => absurd (hk.trans hmarker) hne⟩
  · exact ⟨by rintro ⟨⟩, fun ⟨_, hk, _, hnone⟩ => by rw [hk, hlookup] at hnone; cases hnone⟩
  · exact ⟨by rintro ⟨⟩; exact ⟨hw, rfl, hmarker, hlookup⟩, fun ⟨_, hk, _⟩ => by rw [hk]⟩

theorem exists_decodeWord_eq_prefixWord_iff {w : Bits} :
    (∃ x, decodeWord cfg w = .instr (.prefixWord x)) ↔ w.length = cfg.W ∧ toInt (opcodeField cfg w) = cfg.CONT := by
  rcases decodeWord_cases (cfg := cfg) w with
    ⟨hw, hd⟩ | ⟨hw, hmarker, hd⟩ | ⟨-, hmarker, op, -, hd⟩ | ⟨-, hmarker, -, hd⟩
  · simp [hd, hw]
  · simp [hd, hw, hmarker]
  · simp [hd, hmarker, ofField_ne_prefixWord]
  · simp [hd, hmarker]

/-- The dispatch table holds the opcodes 0 to 7 (D3). -/
theorem config_lookup_eq_none_iff (k : Nat) : config.opcodeMap.lookup k = none ↔ 8 ≤ k := by
  have hmiss : config.opcodeMap.lookup k = none ↔ ∀ j ∈ config.opcodeMap.map Prod.fst, k ≠ j := by
    simp [List.lookup_eq_none_iff]
  have hopcodes : config.opcodeMap.map Prod.fst = List.range 8 := rfl
  rw [hmiss, hopcodes]
  exact ⟨fun h => not_lt.1 fun hk => h k (List.mem_range.2 hk) rfl,
    fun h j hj => ((List.mem_range.1 hj).trans_le h).ne'⟩

theorem config_opcode_le (w : Bits) : toInt (opcodeField config w) ≤ 63 := by
  have hlt := toInt_lt (opcodeField config w)
  have hlen : (opcodeField config w).length ≤ 6 := List.length_take_le 6 w
  have hpow : 2 ^ (opcodeField config w).length ≤ 2 ^ 6 := Nat.pow_le_pow_right (by omega) hlen
  omega

/-- Settles O8: the three ways a word can be no operation, at the canonical opcode numbers. -/
theorem wordsAreRejectedByName : Obligations.WordsAreRejectedByName := by
  intro w
  refine ⟨decodeWord_eq_malformed_iff, fun k => ?_, exists_decodeWord_eq_prefixWord_iff⟩
  have hle := config_opcode_le w
  rw [decodeWord_eq_undefinedOpcode_iff, config_lookup_eq_none_iff]
  refine and_congr_right' (and_congr_right fun hk => ?_)
  rw [← hk] at hle
  rw [config_CONT]
  omega

/-! ## Words written out -/

/-- Settles O4: the decoder evaluated on each of the nine words. -/
theorem writtenWordsDecode : Obligations.WrittenWordsDecode := by
  refine ⟨?_, ?_, ?_, ?_, ?_, ?_, ?_, ?_, ?_⟩ <;> decide

end Sys2Proof
end

