-- ==== Sys2Proof/Proofs/FetchDecode.lean ====
section
/-! PROOFS. `40_fetch_decode.md`: the recursion of `analyze` and its bound (R59 to R64, R67), the step (R58, R65), and the
prefix word (R69). -/

namespace Sys2Proof.Machine

variable {cfg : Config} {s t : State}

/-! ## The recursion of analyze -/

theorem analyze_of_length_ne {w : Bits} (fuel : Nat) (hw : w.length ≠ cfg.W) :
    analyze cfg fuel w s = .raised .malformedInstruction s := by
  rw [analyze.eq_def, if_pos hw]

theorem analyze_of_opcode {w : Bits} (fuel : Nat) (hw : w.length = cfg.W) (hc : toInt (opcodeField cfg w) ≠ cfg.CONT) :
    analyze cfg fuel w s = .ok (toInt (opcodeField cfg w), operandField cfg w) s := by
  rw [analyze.eq_def, if_neg (not_not.2 hw), if_neg hc]

/-- The marker's branch of R64, the fuel unchanged: fuel that covers the cells from PC on covers those after a fetch. -/
theorem analyze_of_marker {w : Bits} {fuel : Nat} (hfuel : cfg.N - toInt s.pc ≤ fuel) (hw : w.length = cfg.W)
    (hc : toInt (opcodeField cfg w) = cfg.CONT) :
    analyze cfg fuel w s =
      (fetch cfg s).bind fun w2 s2 =>
      (analyze cfg fuel w2 s2).bind fun r s3 =>
      .ok (r.1, combine (operandField cfg w) r.2) s3 := by
  rw [analyze_fuel w s hfuel (Nat.le_succ_of_le hfuel), analyze, if_neg (not_not.2 hw), if_pos hc]

/-- How `analyze` comes to answer: the last word of a chain is its opcode and operand field, and each marker word before it
adds one fetch and its own operand bits (R60 to R63). -/
inductive Chain (cfg : Config) : State → Bits → Nat × Bits → State → Prop where
  | last {s : State} {w : Bits} (hw : w.length = cfg.W) (hc : toInt (opcodeField cfg w) ≠ cfg.CONT) :
      Chain cfg s w (toInt (opcodeField cfg w), operandField cfg w) s
  | marker {s t : State} {w : Bits} {r : Nat × Bits} (hw : w.length = cfg.W)
      (hc : toInt (opcodeField cfg w) = cfg.CONT) (hp : toInt s.pc < cfg.N)
      (hrest : Chain cfg (s.afterFetch cfg) (s.mem.read cfg (toInt s.pc)) r t) :
      Chain cfg s w (r.1, combine (operandField cfg w) r.2) t

theorem analyze_chain {w : Bits} {fuel : Nat} {r : Nat × Bits} (h : analyze cfg fuel w s = .ok r t) :
    Chain cfg s w r t := by
  induction fuel generalizing s w r with
  | zero =>
    rw [analyze] at h
    split_ifs at h with hw hc
    cases h
    exact .last (not_not.1 hw) hc
  | succ fuel ih =>
    rw [analyze] at h
    split_ifs at h with hw hc
    · obtain ⟨w2, s2, hfetch, h⟩ := bind_eq_ok h
      obtain ⟨hp, rfl, rfl⟩ := fetch_eq_ok hfetch
      obtain ⟨q, u, hrest, h⟩ := bind_eq_ok h
      cases h
      exact .marker (not_not.1 hw) hc hp (ih hrest)
    · cases h
      exact .last (not_not.1 hw) hc

theorem chain_opcode_ne_marker {w : Bits} {r : Nat × Bits} (h : Chain cfg s w r t) : r.1 ≠ cfg.CONT := by
  induction h with
  | last _ hc => exact hc
  | marker _ _ _ _ ih => exact ih

/-- Settles O23: the three branches, and the last opcode of a chain, which is no marker. -/
theorem analyzeIsTheSpecsRecursion : Obligations.AnalyzeIsTheSpecsRecursion := by
  intro w s
  exact ⟨analyze_of_length_ne (cfg := config) 8, analyze_of_opcode (cfg := config) 8,
    analyze_of_marker (cfg := config) (Nat.sub_le _ _), fun op F t h => chain_opcode_ne_marker (analyze_chain h)⟩

/-! ## The bound of a chain -/

theorem combine_length_ge (x ops : Bits) : x.length ≤ (combine x ops).length := by
  rw [combine, List.length_append]; exact Nat.le_add_right _ _

theorem combine_length_le (x ops : Bits) : (combine x ops).length ≤ x.length + ops.length := by
  rw [combine, List.length_append]; exact Nat.add_le_add_left (strip0_length_le ops) _

/-- Each level of a chain fetches one cell and adds at most one word's operand bits (R67). -/
theorem chain_bounds {w : Bits} {r : Nat × Bits} (h : Chain cfg s w r t) (hp : toInt s.pc ≤ cfg.N) :
    toInt s.pc ≤ toInt t.pc ∧ toInt t.pc ≤ cfg.N ∧ cfg.operandWidth ≤ r.2.length ∧
      r.2.length ≤ cfg.operandWidth * (toInt t.pc - toInt s.pc + 1) := by
  induction h with
  | last hw _ => simp [operandField_length hw, hp]
  | @marker s t w r hw _ hlt _ ih =>
    have hnext : toInt (s.afterFetch cfg).pc = toInt s.pc + 1 := toInt_fromInt _ _
    obtain ⟨hge, hle, -, hlen⟩ := ih (hnext.trans_le hlt)
    rw [hnext] at hge hlen
    have hwidth := operandField_length hw
    have hsteps : toInt t.pc - (toInt s.pc + 1) + 1 = toInt t.pc - toInt s.pc := by omega
    refine ⟨Nat.le_of_succ_le hge, hle, hwidth ▸ combine_length_ge _ _, ?_⟩
    calc (combine (operandField cfg w) r.2).length
      _ ≤ (operandField cfg w).length + r.2.length := combine_length_le _ _
      _ ≤ cfg.operandWidth + cfg.operandWidth * (toInt t.pc - toInt s.pc) :=
        Nat.add_le_add hwidth.le (hsteps ▸ hlen)
      _ = cfg.operandWidth * (toInt t.pc - toInt s.pc + 1) := by ring

/-- Settles O24: the induction along the chain is `chain_bounds`. -/
theorem combinedFieldIsBounded : Obligations.CombinedFieldIsBounded :=
  fun _ _ _ _ _ _ _ _ hp h => chain_bounds (analyze_chain h) hp

/-! ## What fetches leave unchanged -/

theorem fetched_reg (n : Nat) {m : RegName} (hp : m ≠ .PC) (hi : m ≠ .IR) : (s.fetched cfg n).reg m = s.reg m := by
  cases n with
  | zero => rfl
  | succ n =>
    cases m with
    | AC | DR | CR => rfl
    | PC => exact absurd rfl hp
    | IR => exact absurd rfl hi

theorem afterFetch_reg {m : RegName} (hp : m ≠ .PC) (hi : m ≠ .IR) : (s.afterFetch cfg).reg m = s.reg m :=
  fetched_reg 1 hp hi

/-! ## The step -/

theorem execute_of_lookup {k : Nat} {op : Operation} (h : cfg.opcodeMap.lookup k = some op) (F : Bits) :
    execute cfg k F s = perform cfg op F s := by
  rw [execute, h]

theorem execute_undefined {k : Nat} (h : cfg.opcodeMap.lookup k = none) (F : Bits) :
    execute cfg k F s = .raised .undefinedOpcode s := by
  rw [execute, h]

/-- What a step does with the word it has fetched: analyze it and execute the answer (R65). -/
def decodeAndExecute (cfg : Config) (w : Bits) (s : State) : Result Unit :=
  (analyze cfg cfg.N w s).bind fun r u => execute cfg r.1 r.2 u

theorem cycle_eq (s : State) : cycle cfg s = (fetch cfg s).bind (decodeAndExecute cfg) := rfl

/-- Decoding one word and dispatching on what it is comes to analyzing it and executing the answer: a prefix word's meaning
is the marker's branch of `analyze` (R64, R69). -/
theorem finish_decodeAndExecute (w : Bits) (s : State) :
    finish (decodeAndExecute config w s) =
      match decodeWord config w with
      | .instr i => exec i s
      | .error e => finish (.raised (errorOf e) s) := by
  rcases decodeWord_cases (cfg := config) w with
    ⟨hw, hd⟩ | ⟨hw, hc, hd⟩ | ⟨hw, hc, op, hop, hd⟩ | ⟨hw, hc, hop, hd⟩ <;> simp only [hd, decodeAndExecute]
  · rw [analyze_of_length_ne _ hw]; rfl
  · rw [analyze_of_marker (Nat.sub_le _ _) hw hc, exec_prefixWord, continuation]
    simp only [bind_assoc, bind_ok]
  · rw [analyze_of_opcode _ hw hc, bind_ok, execute_of_lookup hop, exec_ofField]
  · rw [analyze_of_opcode _ hw hc, bind_ok, execute_undefined hop]; rfl

theorem finish_cases (x : Result Unit) :
    finish x = match x with
      | .ok _ t => .next (t.report .ok)
      | .raised e t => .next (t.report (.error e)) := by
  cases x with
  | ok => rfl
  | raised => rfl

theorem step_eq_finish_cycle (s : State) : step s = finish (cycle config s) := by
  rw [step, cycle_eq]
  cases fetch config s with
  | raised e u => rfl
  | ok w u => exact (finish_decodeAndExecute w u).symm

/-- Settles O31: the step is the cycle R65 writes, and `finish` reports how that ends. -/
theorem stepIsFetchAnalyzeExecute : Obligations.StepIsFetchAnalyzeExecute := by
  intro s
  rw [step_eq_finish_cycle]
  exact finish_cases (cycle config s)

/-- Settles O30: the fetch succeeds, and the fetched word is the instruction's. -/
theorem stepRunsTheDecodedInstruction : Obligations.StepRunsTheDecodedInstruction :=
  fun _ _ hs hp hd => step_eq_exec hs.mem_wf hp hd

/-! ## A word placed for the next step -/

@[simp] theorem placeWords_reg (s : State) (a : Nat) (ws : List Bits) (r : RegName) :
    (s.placeWords a ws).reg r = s.reg r := by
  induction ws generalizing s a with
  | nil => rfl
  | cons w ws ih => rw [State.placeWords, ih, withMem_reg]

theorem placeWords_wf (hm : s.mem.wf config) {a : Nat} {ws : List Bits} (hfit : a + ws.length ≤ config.N)
    (hws : ∀ w ∈ ws, w.length ≤ config.W) : (s.placeWords a ws).mem.wf config := by
  induction ws generalizing s a with
  | nil => exact hm
  | cons w ws ih =>
    obtain ⟨hw, hws⟩ := List.forall_mem_cons.1 hws
    rw [List.length_cons] at hfit
    exact ih (write_wf hm (by omega) hw) (by omega) hws

theorem placeWords_read_below (hm : s.mem.wf config) {a b : Nat} {ws : List Bits} (hfit : a + ws.length ≤ config.N)
    (hws : ∀ w ∈ ws, w.length ≤ config.W) (hb : b < a) :
    (s.placeWords a ws).mem.read config b = s.mem.read config b := by
  induction ws generalizing s a with
  | nil => rfl
  | cons w ws ih =>
    obtain ⟨hw, hws⟩ := List.forall_mem_cons.1 hws
    rw [List.length_cons] at hfit
    rw [State.placeWords, ih (write_wf hm (by omega) hw) (by omega) hws (by omega), read_write hm.1, if_neg hb.ne]

/-- The first word placed stands at the first address. -/
theorem placeWords_read_first (hm : s.mem.wf config) {a : Nat} {w : Bits} {ws : List Bits}
    (hfit : a + (w :: ws).length ≤ config.N) (hws : ∀ v ∈ w :: ws, v.length ≤ config.W) :
    (s.placeWords a (w :: ws)).mem.read config a = w := by
  obtain ⟨hw, hws⟩ := List.forall_mem_cons.1 hws
  rw [List.length_cons] at hfit
  rw [State.placeWords, placeWords_read_below (write_wf hm (by omega) hw) (by omega) hws (Nat.lt_succ_self a),
    read_write hm.1, if_pos rfl]

/-- A table word as wide as a word of the machine is one word. -/
theorem tableWords_of_lt {w : Nat} (hw : w < 2 ^ 32) : tableWords config 32 w = [natBits 32 w] := by
  have hmod : w % 4294967296 = w := Nat.mod_eq_of_lt hw
  simp [tableWords, hmod]

theorem decodeWord_of_decodeTableWord {w : Nat} {i : Instr} (hw : w < 2 ^ 32) (h : decodeTableWord 32 w = some i) :
    decodeWord config (natBits 32 w) = .instr i := by
  rw [decodeTableWord, tableWords_of_lt hw, List.headD_cons] at h
  split at h
  · cases h; assumption
  · cases h

/-- The words placed are the table word, and after a prefix word a word of zeros (log entry 11). -/
theorem instructionWords_of_lt {w : Nat} (hw : w < 2 ^ 32) :
    ∃ ws, instructionWords config 32 w = natBits 32 w :: ws ∧ ws.length ≤ 1 ∧ ∀ v ∈ ws, v.length = config.W := by
  rw [instructionWords, tableWords_of_lt hw]
  split
  · exact ⟨[natBits 32 0], rfl, le_rfl, by simp⟩
  · exact ⟨[], rfl, Nat.zero_le 1, by simp⟩

/-- With a table word placed after reset, cell 0 holds it, and the registers hold what they did. -/
theorem reset_withFetchWord {w : Nat} (hw : w < 2 ^ 32) :
    (State.reset.withFetchWord 32 w).mem.wf config ∧
      (∀ r, (State.reset.withFetchWord 32 w).reg r = State.reset.reg r) ∧
      (State.reset.withFetchWord 32 w).mem.read config 0 = natBits 32 w := by
  obtain ⟨ws, hwords, hone, hlen⟩ := instructionWords_of_lt hw
  have hreset : State.reset.mem.wf config := ⟨List.Pairwise.nil, List.forall_mem_nil _⟩
  have hfit : 0 + (natBits 32 w :: ws).length ≤ config.N := by
    rw [List.length_cons, config_N]; omega
  have hlens : ∀ v ∈ natBits 32 w :: ws, v.length ≤ config.W :=
    List.forall_mem_cons.2 ⟨(natBits_length 32 w).le, fun v hv => (hlen v hv).le⟩
  have hplaced : State.reset.withFetchWord 32 w = State.reset.placeWords 0 (natBits 32 w :: ws) := by
    rw [State.withFetchWord, hwords]
    exact if_pos hfit
  rw [hplaced]
  exact ⟨placeWords_wf hreset hfit hlens, placeWords_reg _ _ _, placeWords_read_first hreset hfit hlens⟩

/-- Settles O47: the step fetches the placed word from cell 0, to which PC points after reset. -/
theorem placedWordIsTheFirstInstruction : Obligations.PlacedWordIsTheFirstInstruction := by
  intro w i hw h
  obtain ⟨hm, hreg, hread⟩ := reset_withFetchWord hw
  generalize State.reset.withFetchWord 32 w = u at hm hreg hread ⊢
  have hpc : toInt u.pc = 0 := congrArg toInt (hreg .PC)
  rw [← hpc] at hread
  have hd : decodeWord config (u.mem.read config (toInt u.pc)) = .instr i := by
    rw [hread]; exact decodeWord_of_decodeTableWord hw h
  refine ⟨u.afterFetch config, step_eq_exec hm (hpc ▸ Nat.zero_lt_succ 7) hd, hread, ?_, fun r hp hi => ?_, hpc ▸ hread⟩
  · rw [afterFetch_pc, hpc]
  · rw [afterFetch_reg hp hi, hreg]

/-! ## The prefix word -/

/-- A prefix word runs as the chain that a word made of its operand bits begins (R64, R69). -/
theorem exec_prefixWord_eq {x : Bits} (hx : x.length = config.operandWidth) (s : State) :
    exec (.prefixWord x) s =
      finish (decodeAndExecute config (packWord config config.CONT x) s) := by
  rw [finish_decodeAndExecute, decodeWord_prefix config_valid hx]

/-- Where a word and the words from PC on decode to an instruction, analyzing the word and executing the answer is that
instruction after exactly the fetches of its words. -/
theorem finish_decodeAndExecute_of_decode (hm : s.mem.wf config) {w : Bits} {i : Instr} {rest : List Bits}
    (h : decode config (w :: s.image config) = .instr i rest) :
    finish (decodeAndExecute config w s) =
      exec i (s.fetched config ((s.image config).length - rest.length)) := by
  have hanalyzed := analyze_decode config_valid w s hm (Nat.sub_le config.N (toInt s.pc))
  rw [h] at hanalyzed
  rw [decodeAndExecute]
  generalize analyze config config.N w s = a at hanalyzed
  cases hanalyzed with
  | instr op k hi hk =>
    rw [bind_ok, execute_of_lookup hk, ← exec_ofField, ← hi]

/-- Where they decode to none, the error is reported after exactly the fetches of the words read, and no more is changed. -/
theorem finish_decodeAndExecute_of_error (hm : s.mem.wf config) {w : Bits} {e : DecodeError} {rest : List Bits}
    (h : decode config (w :: s.image config) = .error e rest) :
    finish (decodeAndExecute config w s) =
      finish (.raised (errorOf e) (s.fetched config ((s.image config).length - rest.length))) := by
  have hanalyzed := analyze_decode config_valid w s hm (Nat.sub_le config.N (toInt s.pc))
  rw [h] at hanalyzed
  rw [decodeAndExecute]
  generalize analyze config config.N w s = a at hanalyzed
  cases hanalyzed with
  | undefined k F hk => rw [bind_ok, execute_undefined hk]; rfl
  | malformed => rfl
  | wordsEnd => rfl

theorem exec_prefixWord_of_decode (hm : s.mem.wf config) {x : Bits} (hx : x.length = config.operandWidth) {i : Instr}
    {rest : List Bits} (h : decode config (s.image config) = .instr i rest) :
    exec (.prefixWord x) s =
      exec (i.extend config x) (s.fetched config ((s.image config).length - rest.length)) := by
  rw [exec_prefixWord_eq hx]
  refine finish_decodeAndExecute_of_decode hm ?_
  rw [decode_of_prefix (decodeWord_prefix config_valid hx), h]

theorem exec_prefixWord_of_error (hm : s.mem.wf config) {x : Bits} (hx : x.length = config.operandWidth)
    {e : DecodeError} {rest : List Bits} (h : decode config (s.image config) = .error e rest) :
    exec (.prefixWord x) s =
      finish (.raised (errorOf e) (s.fetched config ((s.image config).length - rest.length))) := by
  rw [exec_prefixWord_eq hx]
  refine finish_decodeAndExecute_of_error hm ?_
  rw [decode_of_prefix (decodeWord_prefix config_valid hx), h]

/-- The first sub-field of a combined field is the first characters of the prefix word's operand bits (R49). -/
theorem firstSub_combine (hv : cfg.Valid) (op : Operation) {x : Bits} (hx : x.length = cfg.operandWidth) (F : Bits) :
    firstSub cfg op (combine x F) = x.take (op.firstWidth cfg) :=
  List.take_append_of_le_length (hx ▸ firstWidth_le hv op)

/-- Its second sub-field is the others of these bits and then the stripped field. -/
theorem secondSub_combine (hv : cfg.Valid) (op : Operation) {x : Bits} (hx : x.length = cfg.operandWidth) (F : Bits) :
    secondSub cfg op (combine x F) = x.drop (op.firstWidth cfg) ++ strip0 F :=
  List.drop_append_of_le_length (hx ▸ firstWidth_le hv op)

theorem extend_firstField (hv : cfg.Valid) {x : Bits} (hx : x.length = cfg.operandWidth) {i : Instr} {op : Operation}
    (hop : i.operation? = some op) : (i.extend cfg x).firstField = x.take (op.firstWidth cfg) := by
  rw [Instr.extend, hop]
  exact (ofField_firstField op _).trans (firstSub_combine hv op hx i.field)

/-- Settles O20: the chain that a word of the operand bits begins decodes to the extended instruction. -/
theorem prefixWordRunsTheExtendedInstruction : Obligations.PrefixWordRunsTheExtendedInstruction := by
  intro x s i rest hs hx h
  obtain ⟨op, hop⟩ := Option.ne_none_iff_exists'.1 (decode_operation h)
  have hop' : (i.extend config x).operation? = some op := (extend_operation x i).trans hop
  refine ⟨exec_prefixWord_of_decode hs.mem_wf hx h, extend_operation x i, extend_field hop x, ?_⟩
  rw [instrFirstWidth_of_operation hop', extend_firstField config_valid hx hop]

/-- Where the word at PC is an operation's, the prefix word runs that operation, extended, after the one fetch. -/
theorem exec_prefixWord_of_operation (hm : s.mem.wf config) {x : Bits} (hx : x.length = config.operandWidth) {i : Instr}
    (hp : toInt s.pc < config.N) (hd : decodeWord config (s.mem.read config (toInt s.pc)) = .instr i)
    (hop : i.operation? ≠ none) : exec (.prefixWord x) s = exec (i.extend config x) (s.afterFetch config) := by
  have hdecode : decode config (s.image config) = .instr i ((s.afterFetch config).image config) := by
    rw [image_cons hp, decode_of_operation hd hop]
  rw [exec_prefixWord_of_decode hm hx hdecode, image_cons hp, List.length_cons, Nat.add_sub_cancel_left, afterFetch_eq]

theorem extend_moveRegisterConstant {x : Bits} (hx : x.length = config.operandWidth) (r c : Bits) :
    (Instr.moveRegisterConstant r c).extend config x =
      .moveRegisterConstant (x.take 3) (x.drop 3 ++ strip0 (r ++ c)) :=
  congrArg₂ _ (firstSub_combine config_valid .moveRegisterConstant hx _)
    (secondSub_combine config_valid .moveRegisterConstant hx _)

theorem extend_moveMemoryConstant {x : Bits} (hx : x.length = config.operandWidth) (a c : Bits) :
    (Instr.moveMemoryConstant a c).extend config x =
      .moveMemoryConstant (x.take 10) (x.drop 10 ++ strip0 (a ++ c)) :=
  congrArg₂ _ (firstSub_combine config_valid .moveMemoryConstant hx _)
    (secondSub_combine config_valid .moveMemoryConstant hx _)

/-- Settles O21: after the fetch the extended operation is one store of a number to the register. -/
theorem prefixWordCompletesRegisterConstant : Obligations.PrefixWordCompletesRegisterConstant := by
  intro x s r c n hs hx hp hd hn hfits
  have hstore : exec (.prefixWord x) s =
      .next (((s.afterFetch config).setReg n (fromInt (toInt (x.drop 3 ++ strip0 (r ++ c))))).report .ok) := by
    rw [exec_prefixWord_of_operation hs.mem_wf hx hp hd (Option.some_ne_none _), extend_moveRegisterConstant hx,
      exec_moveRegisterConstant hn, storeReg_ok ((int_fits_iff config_valid).2 hfits)]
    rfl
  refine ⟨_, hstore, rfl, ?_, fun hpc => ?_, fun hir => ?_, fun m hm hpc hir => ?_, ?_⟩
  · rw [report_reg, setReg_reg_self]
  · exact setReg_reg_ne (s.afterFetch config) _ hpc.symm
  · exact setReg_reg_ne (s.afterFetch config) _ hir.symm
  · rw [report_reg, setReg_reg_ne _ _ hm, afterFetch_reg hpc hir]
  · rw [report_mem, setReg_mem, afterFetch_mem]

theorem exec_moveMemoryConstant (a c : Bits) (s : State) :
    exec (.moveMemoryConstant a c) s = finish (memWrite config (toInt a) (.bits c) s) := rfl

/-- Settles O22: after the fetch the extended operation is one store, of the 16 bits and at most 16 more. -/
theorem prefixWordCompletesMemoryConstant : Obligations.PrefixWordCompletesMemoryConstant := by
  intro x s a c hs hx hp hd ha hlen
  have hfits : (x.drop 10 ++ strip0 (a ++ c)).length ≤ config.W := by
    rw [List.length_append, List.length_drop, hx, config_W]; omega
  refine ⟨{ s.afterFetch config with mem := s.mem.write config (toInt (x.take 10)) (x.drop 10 ++ strip0 (a ++ c)) }.report .ok,
    ?_, rfl, rfl, rfl, fun m hpc hir => ?_, fun b => ?_⟩
  · rw [exec_prefixWord_of_operation hs.mem_wf hx hp hd (Option.some_ne_none _), extend_moveMemoryConstant hx,
      exec_moveMemoryConstant, memWrite_ok (cfg := config) (v := .bits _) ha hfits]
    rfl
  · rw [report_reg, withMem_reg, afterFetch_reg hpc hir]
  · exact read_write hs.mem_wf.1 _ b _

/-! ## The frame of a prefix word -/

theorem firstWidth_eq (op : Operation) : op.firstWidth cfg = bif writesRegister op then cfg.R else cfg.A := by
  cases op <;> rfl

/-- Settles O27: what follows ends in a decoding error, after fetches only, or is the extended operation, whose first
sub-field the prefix word holds and whose frame is known. -/
theorem prefixWordFrame : Obligations.PrefixWordFrame := by
  intro x s t hs hx h
  cases hdecode : decode config (s.image config) with
  | error e rest =>
    rw [exec_prefixWord_of_error hs.mem_wf hx hdecode] at h
    have ht := finish_eq_next h
    have hregs : ∀ m, m ≠ .PC → m ≠ .IR → t.reg m = s.reg m := fun m hp hi => by
      rw [ht, report_reg]; exact fetched_reg _ hp hi
    have hmem : t.mem = s.mem := by rw [ht]; exact fetched_mem _ s
    exact ⟨fun m hp hi _ => hregs m hp hi, fun b _ => by rw [hmem], .inl hregs⟩
  | instr i rest =>
    rw [exec_prefixWord_of_decode hs.mem_wf hx hdecode] at h
    obtain ⟨op, hop⟩ := Option.ne_none_iff_exists'.1 (decode_operation hdecode)
    have hop' : (i.extend config x).operation? = some op := (extend_operation x i).trans hop
    have hfirst := extend_firstField config_valid hx hop
    cases hw : writesRegister op with
    | true =>
      obtain ⟨hreg, hmem⟩ := exec_register_frame hop' hw h
      rw [hfirst, firstWidth_eq, hw, cond_true] at hreg
      rw [fetched_mem] at hmem
      exact ⟨fun m hp hi hm => (hreg m hm).trans (fetched_reg _ hp hi), fun b _ => by rw [hmem],
        .inr fun b => by rw [hmem]⟩
    | false =>
      obtain ⟨hreg, hmem⟩ := exec_memory_frame hop' hw ((fetched_mem _ s).symm ▸ hs.mem_wf) h
      rw [hfirst, firstWidth_eq, hw, cond_false] at hmem
      simp only [fetched_mem] at hmem
      have hregs : ∀ m, m ≠ .PC → m ≠ .IR → t.reg m = s.reg m := fun m hp hi => (hreg m).trans (fetched_reg _ hp hi)
      exact ⟨fun m hp hi _ => hregs m hp hi, hmem, .inl hregs⟩

end Sys2Proof.Machine
end

