-- ==== Sys2Proof/Proofs/Move.lean ====
section
/-! PROOFS. `41_move.md`: what each move does where it completes (R71 to R75). A move whose operands resolve is one store,
and a store that fits completes and changes only its destination. -/

namespace Sys2Proof.Machine

variable {cfg : Config} {s : State}

/-! ## A store that fits, as the last statement of an operation -/

theorem storeReg_completes (r : RegName) {v : Value} (h : v.normalize.length ≤ cfg.W) :
    ∃ t, finish (storeReg cfg r v s) = .next t ∧ t.status = .ok ∧
      t.reg r = v.normalize ∧ (∀ m, m ≠ r → t.reg m = s.reg m) ∧ t.mem = s.mem := by
  refine ⟨(s.setReg r v.normalize).report .ok, ?_, rfl, ?_, fun m hm => ?_, setReg_mem s r _⟩
  · rw [storeReg_ok h, finish_ok]
  · rw [report_reg, setReg_reg_self]
  · rw [report_reg, setReg_reg_ne s _ hm]

theorem memWrite_completes (hm : s.mem.wf cfg) {a : Nat} {v : Value} (ha : a < cfg.N) (h : v.normalize.length ≤ cfg.W) :
    ∃ t, finish (memWrite cfg a v s) = .next t ∧ t.status = .ok ∧ (∀ m, t.reg m = s.reg m) ∧
      ∀ b, t.mem.read cfg b = if b = a then v.normalize else s.mem.read cfg b := by
  refine ⟨({ s with mem := s.mem.write cfg a v.normalize } : State).report .ok, ?_, rfl, fun m => ?_, fun b => ?_⟩
  · rw [memWrite_ok ha h, finish_ok]
  · rw [report_reg, withMem_reg]
  · exact read_write hm.1 a b _

/-! ## The moves to a register -/

/-- Settles O12: the one store is of a number, which fits where it is below `2^32`. -/
theorem moveRegisterConstantCompletes : Obligations.MoveRegisterConstantCompletes := by
  intro r c n s hn hfits
  rw [exec_moveRegisterConstant hn]
  exact storeReg_completes n ((int_fits_iff config_valid).2 hfits)

/-- Settles O13: the one store is of a cell's string, which fits in every state of the machine. -/
theorem moveRegisterMemoryCompletes : Obligations.MoveRegisterMemoryCompletes := by
  intro r a n s hs hn ha
  rw [exec_moveRegisterMemory hn ha]
  exact storeReg_completes n (v := .bits _) (read_fits config_valid hs.mem_wf _)

/-! ## The moves to a cell -/

/-- Where the address names a cell and the field a register, R75 is the one store of the register's string. -/
theorem exec_moveMemoryRegister {a r : Bits} {n : RegName} (ha : toInt a < config.N)
    (hr : config.regNames[toInt r]? = some n) :
    exec (.moveMemoryRegister a r) s = finish (memWrite config (toInt a) (.bits (s.reg n)) s) := by
  rw [exec_operation rfl, operate, moveMemoryRegister, Instr.firstField, resolveAddress_ok ha, bind_ok,
    Instr.secondField, resolveReg_ok hr, bind_ok, registerCopy]

/-- Settles O14: the one store is of the constant's own string, at most as long as a cell's. -/
theorem moveMemoryConstantCompletes : Obligations.MoveMemoryConstantCompletes := by
  intro a c s hs ha hc
  rw [exec_moveMemoryConstant]
  exact memWrite_completes hs.mem_wf (v := .bits c) ha hc

/-- Settles O15: the one store is of the source cell's string, which fits in every state of the machine. -/
theorem moveMemoryMemoryCompletes : Obligations.MoveMemoryMemoryCompletes := by
  intro d src s hs hd hsrc
  rw [exec_moveMemoryMemory hd hsrc]
  exact memWrite_completes hs.mem_wf (v := .bits _) hd (read_fits config_valid hs.mem_wf _)

/-- Settles O16: the one store is of a register's string, which fits in every state of the machine. -/
theorem moveMemoryRegisterCompletes : Obligations.MoveMemoryRegisterCompletes := by
  intro a r n s hs ha hn
  rw [exec_moveMemoryRegister ha hn]
  exact memWrite_completes hs.mem_wf (v := .bits _) ha (hs.reg_length n)

end Sys2Proof.Machine
end

