-- ==== Sys2Proof/Proofs/Add.lean ====
section
/-! PROOFS. `42_add.md`: what each add does where it completes (R77 to R79). An add whose operands resolve is one store of
the exact sum (R76), which fits where the sum is below `2^32`. -/

namespace Sys2Proof.Machine

variable {s : State}

/-! ## The adds to a register -/

/-- Settles O17: the one store is of the register's value plus the constant's, which fits where it is below `2^32`. -/
theorem addRegisterConstantCompletes : Obligations.AddRegisterConstantCompletes := by
  intro r c n s hn hsum
  rw [exec_addRegisterConstant hn]
  exact storeReg_completes n ((int_fits_iff config_valid).2 hsum)

/-- Settles O18: the one store is of the cell's value plus the register's, which fits where it is below `2^32`. -/
theorem addRegisterMemoryCompletes : Obligations.AddRegisterMemoryCompletes := by
  intro r a n s hn ha hsum
  rw [exec_addRegisterMemory hn ha]
  exact storeReg_completes n ((int_fits_iff config_valid).2 hsum)

/-! ## The add to a cell -/

/-- Where the address names a cell and the field a register, R79 is the one store of the sum in the cell it read. -/
theorem exec_addMemoryRegister {a r : Bits} {n : RegName} (ha : toInt a < config.N)
    (hr : config.regNames[toInt r]? = some n) :
    exec (.addMemoryRegister a r) s =
      finish (memWrite config (toInt a) (.int (toInt (s.mem.read config (toInt a)) + toInt (s.reg n))) s) := by
  rw [exec_operation rfl, operate, addMemoryRegister, Instr.firstField, resolveAddress_ok ha, bind_ok,
    Instr.secondField, resolveReg_ok hr, bind_ok, memRead_ok ha, bind_ok, sum]

/-- Settles O19: the one store is of the cell's value plus the register's, which fits where it is below `2^32`; the other
cells read as before because the memory of a machine state is in its canonical form. -/
theorem addMemoryRegisterCompletes : Obligations.AddMemoryRegisterCompletes := by
  intro a r n s hs ha hn hsum
  rw [exec_addMemoryRegister ha hn]
  exact memWrite_completes hs.mem_wf ha ((int_fits_iff config_valid).2 hsum)

end Sys2Proof.Machine
end


-- ==== Sys2Proof/Proofs/Exceptions.lean ====
section
/-! PROOFS. `60_exceptions.md`: what an operation that fails leaves (R87), what each operation reports (R82 to R84, R90), the
state after every step, complete or failed (R88), and that no outcome bears on what comes after (R96). -/

namespace Sys2Proof.Machine

variable {cfg : Config} {s t : State}

/-! ## A failing operation -/

/-- Settles O28: of an operation's effects only `Effect.raised` reports an error, and it holds the state as it was. -/
theorem failingOperationChangesNothing : Obligations.FailingOperationChangesNothing := by
  intro i s t hi h hst
  obtain ⟨op, hop⟩ := Option.ne_none_iff_exists'.1 hi
  obtain ⟨x, hx, rfl⟩ := exec_effect hop h
  cases hx with
  | raised e => rfl
  | register => exact absurd rfl hst
  | cell => exact absurd rfl hst

/-! ## What each check reports -/

/-- A register reference is checked before what follows it (R82). -/
theorem status_resolveReg_bind {f : Bits} {k : RegName → State → Result Unit} {st : Status}
    (hk : ∀ n, cfg.regNames[toInt f]? = some n → (k n s).status = st) :
    ((resolveReg cfg f s).bind k).status =
      if cfg.regNames[toInt f]? = none then .error .registerNotFound else st := by
  rcases resolveReg_cases cfg f s with ⟨n, hn, h⟩ | ⟨hn, h⟩
  · rw [h, bind_ok, hk n hn, if_neg (hn ▸ Option.some_ne_none n)]
  · rw [h, if_pos hn]; rfl

/-- An address in first position is checked before the second sub-field (R83, D9). -/
theorem status_resolveAddress_bind {f : Bits} {k : Nat → State → Result Unit} {st : Status}
    (hk : toInt f < cfg.N → (k (toInt f) s).status = st) :
    ((resolveAddress cfg f s).bind k).status = if cfg.N ≤ toInt f then .error .addressNotFound else st := by
  rcases resolveAddress_cases cfg f s with ⟨ha, h⟩ | ⟨ha, h⟩
  · rw [h, bind_ok, hk ha, if_neg ha.not_ge]
  · rw [h, if_pos ha]; rfl

/-- A read checks its address before what follows it (R83). -/
theorem status_memRead_bind {a : Nat} {k : Bits → State → Result Unit} {st : Status}
    (hk : a < cfg.N → (k (s.mem.read cfg a) s).status = st) :
    ((memRead cfg a s).bind k).status = if cfg.N ≤ a then .error .addressNotFound else st := by
  rcases memRead_cases cfg a s with ⟨ha, h⟩ | ⟨ha, h⟩
  · rw [h, bind_ok, hk ha, if_neg ha.not_ge]
  · rw [h, if_pos ha]; rfl

/-- A register store checks the length (R84). -/
theorem status_storeReg (r : RegName) (v : Value) :
    (storeReg cfg r v s).status = if cfg.W < v.normalize.length then .error .valueTooLong else .ok := by
  unfold storeReg; split <;> rfl

/-- A memory store checks its address and then the length (R83, R84, D19). -/
theorem status_memWrite (a : Nat) (v : Value) :
    (memWrite cfg a v s).status =
      if cfg.N ≤ a then .error .addressNotFound else if cfg.W < v.normalize.length then .error .valueTooLong else .ok := by
  rcases lt_or_ge a cfg.N with ha | ha
  · rw [if_neg ha.not_ge, memWrite, if_pos ha]; split <;> rfl
  · rw [if_pos ha, memWrite_not_found ha]; rfl

theorem int_too_long_iff (hv : cfg.Valid) {v : Nat} : cfg.W < (Value.int v).normalize.length ↔ 2 ^ cfg.W ≤ v := by
  rw [← not_le, int_fits_iff hv, not_lt]

theorem status_storeReg_int (hv : cfg.Valid) (r : RegName) (v : Nat) :
    (storeReg cfg r (.int v) s).status = if 2 ^ cfg.W ≤ v then .error .valueTooLong else .ok := by
  simp only [status_storeReg, int_too_long_iff hv]

theorem status_memWrite_int (hv : cfg.Valid) {a : Nat} (ha : a < cfg.N) (v : Nat) :
    (memWrite cfg a (.int v) s).status = if 2 ^ cfg.W ≤ v then .error .valueTooLong else .ok := by
  simp only [status_memWrite, if_neg ha.not_ge, int_too_long_iff hv]

theorem status_storeReg_bits (r : RegName) {b : Bits} (hb : b.length ≤ cfg.W) :
    (storeReg cfg r (.bits b) s).status = .ok := by
  rw [storeReg_ok (v := .bits b) hb]; rfl

theorem status_memWrite_bits {a : Nat} (ha : a < cfg.N) {b : Bits} (hb : b.length ≤ cfg.W) :
    (memWrite cfg a (.bits b) s).status = .ok := by
  rw [memWrite_ok (v := .bits b) ha hb]; rfl

/-! ## What each operation reports -/

/-- The outcome an operation reports is that of its rule (R70). -/
theorem exec_reports {i : Instr} {op : Operation} (hop : i.operation? = some op) {st : Status}
    (h : (operate config op i.firstField i.secondField s).status = st) :
    ∃ t, exec i s = .next t ∧ t.status = st :=
  ⟨_, exec_operation hop s, h⟩

/-- Settles O29: each operation is its checks in the order of R90 and then a store; in a state of the machine a copied
string fits, so only a constant or a sum can be too long. -/
theorem operationsReportTheirFirstError : Obligations.OperationsReportTheirFirstError := by
  intro f g s hs reg val cell noReg noAddr tooLong reports
  have hval {x : Bits} {n : RegName} (hn : config.regNames[toInt x]? = some n) : val x = toInt (s.reg n) := by
    simp only [val, reg, hn, Option.map_some, Option.getD_some]
  have hread (a : Nat) : (s.mem.read config a).length ≤ config.W := read_fits config_valid hs.mem_wf a
  refine ⟨exec_reports rfl ?_, exec_reports rfl ?_, exec_reports rfl ?_, exec_reports rfl ?_, exec_reports rfl ?_,
    exec_reports rfl ?_, exec_reports rfl ?_, exec_reports rfl ?_⟩
  · exact status_resolveReg_bind fun n _ => status_storeReg_int config_valid n _
  · exact status_resolveReg_bind fun n _ => status_memRead_bind fun _ => status_storeReg_bits n (hread _)
  · exact status_memWrite (toInt f) (.bits g)
  · exact status_resolveAddress_bind fun ha => status_memRead_bind fun _ => status_memWrite_bits ha (hread _)
  · exact status_resolveAddress_bind fun ha => status_resolveReg_bind fun n _ =>
      status_memWrite_bits ha (hs.reg_length n)
  · exact status_resolveReg_bind fun n hn => hval hn ▸ status_storeReg_int config_valid n _
  · exact status_resolveReg_bind fun n hn => status_memRead_bind fun _ =>
      hval hn ▸ status_storeReg_int config_valid n _
  · refine status_resolveAddress_bind fun ha => status_resolveReg_bind fun n hn => ?_
    rw [memRead_ok ha, bind_ok]
    exact hval hn ▸ status_memWrite_int config_valid ha _

/-! ## The state after every step -/

/-- A step from a cell analyzes the word there after one fetch (R58, R65). -/
theorem step_eq_decodeAndExecute (hm : s.mem.wf config) (hp : toInt s.pc < config.N) :
    step s = finish (decodeAndExecute config (s.mem.read config (toInt s.pc)) (s.afterFetch config)) := by
  rw [step_eq_finish_cycle, cycle_eq, fetch_ok config_valid (read_fits config_valid hm _) hp, bind_ok]

/-- The first fetch and those that a decoding of the words after it takes are the fetches of the words it read. -/
theorem fetched_afterFetch (hp : toInt s.pc < cfg.N) {rest : List Bits} (hrest : rest.length < (s.image cfg).length) :
    (s.afterFetch cfg).fetched cfg (((s.afterFetch cfg).image cfg).length - rest.length) =
      s.fetched cfg ((s.image cfg).length - rest.length) := by
  rw [image_cons hp, List.length_cons] at hrest ⊢
  rw [fetched_succ, ← Nat.sub_add_comm (Nat.le_of_lt_succ hrest)]

theorem step_of_decode (hm : s.mem.wf config) {i : Instr} {rest : List Bits}
    (h : decode config (s.image config) = .instr i rest) :
    step s = exec i (s.fetched config ((s.image config).length - rest.length)) := by
  have hrest := (decode_rest_length _).1 _ _ h
  have hp : toInt s.pc < config.N := by rw [image_length] at hrest; omega
  rw [image_cons hp] at h
  rw [step_eq_decodeAndExecute hm hp, finish_decodeAndExecute_of_decode (s := s.afterFetch config) hm h,
    fetched_afterFetch hp hrest]

theorem step_of_decode_error (hm : s.mem.wf config) {e : DecodeError} {rest : List Bits}
    (h : decode config (s.image config) = .error e rest) :
    step s = finish (.raised (errorOf e) (s.fetched config ((s.image config).length - rest.length))) := by
  rcases lt_or_ge (toInt s.pc) config.N with hp | hp
  · have hrest : rest.length < (s.image config).length := by
      rcases (decode_rest_length _).2 _ _ h with ⟨-, rfl⟩ | hlt
      · rw [image_cons hp]; exact Nat.succ_pos _
      · exact hlt
    rw [image_cons hp] at h
    rw [step_eq_decodeAndExecute hm hp, finish_decodeAndExecute_of_error (s := s.afterFetch config) hm h,
      fetched_afterFetch hp hrest]
  · rw [image_nil hp] at h
    cases h
    rw [step_eq_finish_cycle, cycle_eq, fetch_not_found hp, image_nil hp]
    rfl

/-- Settles O32: the step is what the decoder makes of the words from PC on, where PC names a cell and where it names none. -/
theorem stepRunsTheMemoryImage : Obligations.StepRunsTheMemoryImage := by
  intro s hs
  refine ⟨fun i rest h => step_of_decode hs.mem_wf h, fun e rest h => ?_⟩
  rw [step_of_decode_error hs.mem_wf h]
  cases e <;> rfl

/-! ## No step depends on the outcome reported before it -/

/-- What a sub-operation ends in, with its state's recorded outcome replaced. -/
def Result.report {α : Type} (x : Result α) (st : Status) : Result α :=
  match x with
  | .ok a s => .ok a (s.report st)
  | .raised e s => .raised e (s.report st)

/-! The proofs of these two are closed terms in parentheses: `simp` then takes them as rewrites with a proof, which the side
condition of `report_bind` needs. -/

@[simp] theorem result_report_ok {α : Type} (a : α) (s : State) (st : Status) :
    (Result.ok a s).report st = .ok a (s.report st) := (rfl)
@[simp] theorem result_report_raised {α : Type} (e : ErrorKind) (s : State) (st : Status) :
    (Result.raised e s : Result α).report st = .raised e (s.report st) := (rfl)

/-- The end of an operation overwrites the recorded outcome (R70). -/
@[simp] theorem finish_report (x : Result Unit) (st : Status) : finish (x.report st) = finish x := by
  cases x <;> rfl

/-- A sequence carries the recorded outcome along where what follows its first part does. -/
@[simp] theorem report_bind {α β : Type} (x : Result α) (st : Status) {f : α → State → Result β}
    (hf : ∀ a s, f a (s.report st) = (f a s).report st) : (x.report st).bind f = (x.bind f).report st := by
  cases x with
  | ok a s => exact hf a s
  | raised e s => rfl

@[simp] theorem storeReg_report (r : RegName) (v : Value) (s : State) (st : Status) :
    storeReg cfg r v (s.report st) = (storeReg cfg r v s).report st := by
  unfold storeReg; split <;> simp

@[simp] theorem memRead_report (a : Nat) (s : State) (st : Status) :
    memRead cfg a (s.report st) = (memRead cfg a s).report st := by
  unfold memRead; split <;> simp

@[simp] theorem memWrite_report (a : Nat) (v : Value) (s : State) (st : Status) :
    memWrite cfg a v (s.report st) = (memWrite cfg a v s).report st := by
  unfold memWrite; split_ifs <;> rfl

@[simp] theorem resolveReg_report (f : Bits) (s : State) (st : Status) :
    resolveReg cfg f (s.report st) = (resolveReg cfg f s).report st := by
  unfold resolveReg; split <;> rfl

@[simp] theorem resolveAddress_report (f : Bits) (s : State) (st : Status) :
    resolveAddress cfg f (s.report st) = (resolveAddress cfg f s).report st := by
  unfold resolveAddress; split <;> rfl

@[simp] theorem registerCopy_report (r : RegName) (s : State) (st : Status) :
    registerCopy r (s.report st) = registerCopy r s := by
  simp [registerCopy]

@[simp] theorem fetch_report (s : State) (st : Status) : fetch cfg (s.report st) = (fetch cfg s).report st := by
  simp only [fetch, report_reg, memRead_report]
  exact report_bind _ _ fun w s1 => by simp

/-- Every operation is made of parts that ignore the recorded outcome. -/
@[simp] theorem operate_report (op : Operation) (f g : Bits) (s : State) (st : Status) :
    operate cfg op f g (s.report st) = (operate cfg op f g s).report st := by
  cases op with
  | moveRegisterConstant => simp [operate, moveRegisterConstant]
  | moveRegisterMemory => simp [operate, moveRegisterMemory]
  | moveMemoryConstant => simp [operate, moveMemoryConstant]
  | moveMemoryMemory => simp [operate, moveMemoryMemory]
  | moveMemoryRegister => simp [operate, moveMemoryRegister]
  | addRegisterConstant => simp [operate, addRegisterConstant]
  | addRegisterMemory => simp [operate, addRegisterMemory]
  | addMemoryRegister =>
    simp only [operate, addMemoryRegister, resolveAddress_report]
    exact report_bind _ _ fun dst s => by simp

@[simp] theorem execute_report (k : Nat) (F : Bits) (s : State) (st : Status) :
    execute cfg k F (s.report st) = (execute cfg k F s).report st := by
  unfold execute
  split
  · simp [perform]
  · rfl

/-- A chain fetches and reads no outcome, by induction on its levels. -/
@[simp] theorem analyze_report (fuel : Nat) (w : Bits) (s : State) (st : Status) :
    analyze cfg fuel w (s.report st) = (analyze cfg fuel w s).report st := by
  induction fuel generalizing w s with
  | zero => simp only [analyze]; split_ifs <;> rfl
  | succ fuel ih =>
    simp only [analyze, fetch_report]
    split_ifs
    · rfl
    · exact report_bind _ _ fun w2 s => by simp [ih]
    · rfl

@[simp] theorem cycle_report (s : State) (st : Status) : cycle cfg (s.report st) = (cycle cfg s).report st := by
  simp [cycle]

/-- Settles O37: the cycle carries the recorded outcome along unread, and its end overwrites it. -/
theorem stepReadsNoStatus : Obligations.StepReadsNoStatus := by
  intro s st
  rw [step_eq_finish_cycle, step_eq_finish_cycle, cycle_report, finish_report]

end Sys2Proof.Machine
end

