-- ==== Sys2Proof/Proofs/ResetAndHazards.lean ====
section
/-! PROOFS. `70_reset_and_hazards.md`: the power-on states (R97), the loading of a program (R98, R99), halting (R101),
inspection (R103 to R105), sequences of host operations (R106), and what an instruction sees of its own fetch (R108, R109). -/

namespace Sys2Proof.Machine

variable {cfg : Config} {s : State}

/-! ## Every host operation keeps the machine's states -/

@[simp] theorem powerOn_reg (cfg : Config) (r : RegName) : (State.powerOn cfg).reg r = cfg.resetReg r := by
  cases r <;> rfl

@[simp] theorem powerOn_mem (cfg : Config) : (State.powerOn cfg).mem = [] := rfl

/-- The power-on state of valid parameters is a state of the machine: no register starts too long (R27), no cell is listed. -/
theorem powerOn_inv (hv : cfg.Valid) : (State.powerOn cfg).Inv cfg :=
  ⟨fun r => (powerOn_reg cfg r).symm ▸ hv.resetReg_length r, List.Pairwise.nil, List.forall_mem_nil _⟩

theorem storeReg_inv (h : s.Inv cfg) (r : RegName) (v : Value) : (storeReg cfg r v s).state.Inv cfg := by
  rcases le_or_gt v.normalize.length cfg.W with hfits | hlong
  · rw [storeReg_ok hfits]; exact setReg_inv h r hfits
  · rw [storeReg_too_long hlong]; exact h

theorem memWrite_inv (h : s.Inv cfg) (a : Nat) (v : Value) : (memWrite cfg a v s).state.Inv cfg := by
  unfold memWrite
  split_ifs with ha hlong
  · exact h
  · exact write_inv h ha (not_lt.1 hlong)
  · exact h

theorem storeLines_inv (h : s.Inv cfg) (a : Nat) (lines : List Bits) : (storeLines cfg a lines s).state.Inv cfg := by
  induction lines generalizing s a with
  | nil => exact h
  | cons l ls ih => exact bind_inv (memWrite_inv h a _) fun _ _ ht => ih ht (a + 1)

/-- A load keeps the machine's states, a failing one included (R99). -/
theorem loadProgram_inv (h : s.Inv cfg) (lines : List Bits) : (loadProgram cfg lines s).state.Inv cfg :=
  bind_inv (storeReg_inv h .PC _) fun _ _ ht => storeLines_inv ht 0 lines

theorem cycle_inv (hv : cfg.Valid) (h : s.Inv cfg) : (cycle cfg s).state.Inv cfg :=
  bind_inv (fetch_inv hv h) fun w _ ht => bind_inv (analyze_inv hv _ w ht) fun r _ hu => execute_inv r.1 r.2 hu

theorem invoke_inv (hv : cfg.Valid) (op : HostOp) (h : s.Inv cfg) : (invoke cfg op s).1.Inv cfg := by
  cases op with
  | step => exact report_inv (cycle_inv hv h) _
  | loadProgram lines => exact report_inv (loadProgram_inv h lines) _
  | dump | readMemory | readRegister => exact h

theorem session_inv (hv : cfg.Valid) (ops : List HostOp) (h : s.Inv cfg) : (session cfg ops s).Inv cfg := by
  induction ops generalizing s with
  | nil => exact h
  | cons op ops ih => exact ih (invoke_inv hv op h)

/-- Settles O45: the power-on state is one of the machine, and each operation of a session keeps it so. -/
theorem everySessionKeepsMachineStates : Obligations.EverySessionKeepsMachineStates :=
  fun _ hv => ⟨powerOn_inv hv, fun ops _ h => session_inv hv ops h⟩

/-- Settles O34: the state after reset is the power-on state of the canonical parameters, which are valid. -/
theorem resetIsMachineState : Obligations.ResetIsMachineState :=
  ⟨powerOn_inv config_valid, powerOn_reg config, powerOn_mem config⟩

/-! ## Every state of the machine as a power-on state -/

/-- The canonical parameters with a state's registers and cells as the OPEN power-on contents (R27, R41). -/
def State.asPowerOn (s : State) : Config :=
  { config with resetReg := s.reg, resetMem := s.mem.read config }

/-- These contents are admitted where the state is one of the machine: no string is too long. -/
theorem asPowerOn_valid (h : s.Inv config) : s.asPowerOn.Valid :=
  { config_valid with
    resetReg_length := h.reg_length
    resetMem_length := read_fits config_valid h.mem_wf }

/-- Settles O46: power-on with a state's own strings as the contents gives these strings back. -/
theorem everyMachineStateIsAPowerOnState : Obligations.EveryMachineStateIsAPowerOnState :=
  ⟨powerOn_reg, fun cfg a => read_nil cfg a, fun s h =>
    ⟨s.asPowerOn, asPowerOn_valid h, rfl, powerOn_reg s.asPowerOn, read_nil s.asPowerOn⟩⟩

/-! ## Loading a program -/

/-- Lines that fit are stored one after the other, whatever comes after them (R36, R98). -/
theorem storeLines_append (hm : s.mem.wf cfg) {a : Nat} {before : List Bits} (hfit : a + before.length ≤ cfg.N)
    (hlen : ∀ l ∈ before, l.length ≤ cfg.W) :
    ∃ t, (∀ later, storeLines cfg a (before ++ later) s = storeLines cfg (a + before.length) later t) ∧
      (∀ r, t.reg r = s.reg r) ∧
      ∀ b, t.mem.read cfg b = if a ≤ b then before[b - a]?.getD (s.mem.read cfg b) else s.mem.read cfg b := by
  induction before generalizing s a with
  | nil => exact ⟨s, fun _ => rfl, fun _ => rfl, fun b => by simp⟩
  | cons l ls ih =>
    obtain ⟨hl, hls⟩ := List.forall_mem_cons.1 hlen
    rw [List.length_cons] at hfit
    have ha : a < cfg.N := by omega
    obtain ⟨t, hrest, hreg, hread⟩ :=
      ih (s := { s with mem := s.mem.write cfg a l }) (write_wf hm ha hl) (a := a + 1) (by omega) hls
    refine ⟨t, fun later => ?_, fun r => (hreg r).trans (withMem_reg s _ r), fun b => ?_⟩
    · rw [List.cons_append, storeLines, memWrite_ok (v := .bits l) ha hl, bind_ok, normalize_bits, hrest,
        List.length_cons, Nat.add_right_comm, Nat.add_assoc]
    · rw [hread, read_write hm.1]
      rcases lt_trichotomy b a with hlt | rfl | hgt
      · simp [hlt.ne, hlt.not_ge, (Nat.lt_succ_of_lt hlt).not_ge]
      · simp
      · obtain ⟨d, rfl⟩ := Nat.exists_eq_add_of_lt hgt
        have hd : a + d + 1 - a = d + 1 := by omega
        have hd' : a + d + 1 - (a + 1) = d := by omega
        simp [hd, hd', hgt.le, hgt.ne']

/-- A load whose first lines fit comes to the lines after them with PC at `fromInt(0)` and the first ones stored from
address 0 (R98). -/
theorem loadProgram_append (hv : cfg.Valid) (hs : s.Inv cfg) {before : List Bits} (hfit : before.length ≤ cfg.N)
    (hlen : ∀ l ∈ before, l.length ≤ cfg.W) :
    ∃ t, (∀ later, loadProgram cfg (before ++ later) s = storeLines cfg before.length later t) ∧
      t.pc = fromInt 0 ∧ (∀ r, r ≠ .PC → t.reg r = s.reg r) ∧
      ∀ b, t.mem.read cfg b = if h : b < before.length then before[b] else s.mem.read cfg b := by
  have hzero : (Value.int 0).normalize.length ≤ cfg.W := hv.fromInt_fits (Nat.zero_le _)
  obtain ⟨t, hrest, hreg, hread⟩ :=
    storeLines_append (s := s.setReg .PC (fromInt 0)) hs.mem_wf (a := 0) ((Nat.zero_add _).trans_le hfit) hlen
  refine ⟨t, fun later => ?_, hreg .PC, fun r hr => (hreg r).trans (setReg_reg_ne s _ hr), fun b => ?_⟩
  · rw [loadProgram, storeReg_ok hzero, bind_ok, normalize_int, hrest, Nat.zero_add]
  · rw [hread, if_pos (Nat.zero_le b), Nat.sub_zero, List.getD_getElem?, setReg_mem]

/-- Settles O41: all lines fit, and nothing comes after them. -/
theorem loadProgramStoresTheLines : Obligations.LoadProgramStoresTheLines := by
  intro cfg hv lines s hs hfit hlen
  obtain ⟨t, hload, hstate⟩ := loadProgram_append hv hs hfit hlen
  exact ⟨t, by rw [← List.append_nil lines, hload, storeLines], hstate⟩

/-- A line past the last cell, or longer than a word, ends the stores (R99), the address checked first (D19). -/
theorem storeLines_fails {a : Nat} {line : Bits} (later : List Bits) (ha : a ≤ cfg.N)
    (hfail : a = cfg.N ∨ cfg.W < line.length) :
    storeLines cfg a (line :: later) s =
      .raised (if a = cfg.N then .addressNotFound else .valueTooLong) s := by
  rw [storeLines]
  rcases ha.eq_or_lt with hlast | hlt
  · rw [memWrite_not_found hlast.ge, if_pos hlast, bind_raised]
  · rw [memWrite_too_long (v := .bits line) hlt (hfail.resolve_left hlt.ne), if_neg hlt.ne, bind_raised]

/-- Settles O42: the lines before the failing one fit, and the stores end at it. -/
theorem loadProgramStopsAtTheFirstFailure : Obligations.LoadProgramStopsAtTheFirstFailure := by
  intro cfg hv before line later s hs hfit hlen hfail
  obtain ⟨t, hload, hstate⟩ := loadProgram_append hv hs hfit hlen
  exact ⟨t, by rw [hload, storeLines_fails later hfit hfail], hstate⟩

/-! ## Program text -/

/-- A bit as the character that spells it. -/
def bitChar (x : Bool) : Char := if x then '1' else '0'

theorem parseLine_eq_none_iff (cs : List Char) : parseLine cs = none ↔ ∃ c ∈ cs, c ≠ '0' ∧ c ≠ '1' := by
  induction cs with
  | nil => simp [parseLine]
  | cons c cs ih =>
    rw [List.exists_mem_cons_iff, ← ih, parseLine]
    cases parseLine cs with
    | none => simp
    | some t => by_cases h1 : c = '1' <;> by_cases h0 : c = '0' <;> simp [h1, h0]

theorem parseLines_eq_none_iff (lines : List (List Char)) :
    parseLines lines = none ↔ ∃ l ∈ lines, parseLine l = none := by
  induction lines with
  | nil => simp [parseLines]
  | cons l ls ih =>
    rw [List.exists_mem_cons_iff, ← ih, parseLines]
    cases parseLine l <;> cases parseLines ls <;> simp

theorem parseLine_bitChar (b : Bits) : parseLine (b.map bitChar) = some b := by
  induction b with
  | nil => rfl
  | cons x b ih => rw [List.map_cons, parseLine, ih]; cases x <;> rfl

theorem parseLines_bitChar (bs : List Bits) : parseLines (bs.map fun b => b.map bitChar) = some bs := by
  induction bs with
  | nil => rfl
  | cons b bs ih => rw [List.map_cons, parseLines, parseLine_bitChar, ih]

theorem loadText_of_parseLines {lines : List (List Char)} {bs : List Bits} (h : parseLines lines = some bs) (s : State) :
    loadText cfg lines s = finish (loadProgram cfg bs s) := by
  rw [loadText, h]

/-- The interface refuses exactly the text that does not parse: a load that runs ends in a next state. -/
theorem loadText_refused_iff (lines : List (List Char)) (s : State) :
    loadText cfg lines s = .refused .nonBinaryLine ↔ parseLines lines = none := by
  unfold loadText
  cases parseLines lines with
  | none => simp
  | some bs => simp [finish]

/-- Settles O43: a text does not parse where one of its characters does not, and spelled bit strings parse to themselves. -/
theorem loadTextRefusesOtherCharacters : Obligations.LoadTextRefusesOtherCharacters := by
  intro lines s
  refine ⟨?_, fun bs => loadText_of_parseLines (parseLines_bitChar bs) s⟩
  rw [loadText_refused_iff, parseLines_eq_none_iff]
  simp only [parseLine_eq_none_iff]

/-! ## What an instruction sees of its own fetch -/

theorem afterFetch_inv (hv : cfg.Valid) (h : s.Inv cfg) (hp : toInt s.pc < cfg.N) : (s.afterFetch cfg).Inv cfg :=
  fetched_inv hv h (n := 1) hp

/-- Settles O40: the step runs its one store in the state after the fetch, whose PC and IR are the fetch's. -/
theorem executionSeesAdvancedPcAndFetchedWord : Obligations.ExecutionSeesAdvancedPcAndFetchedWord := by
  intro s a r n hs hp hd ha hn
  have hafter := afterFetch_inv config_valid hs hp
  obtain ⟨t, hstore, hok, -, hread⟩ :=
    memWrite_completes hafter.mem_wf (v := .bits ((s.afterFetch config).reg n)) ha (hafter.reg_length n)
  refine ⟨t, ?_, hok, ?_⟩
  · rw [step_eq_exec hs.mem_wf hp hd, exec_moveMemoryRegister ha hn, hstore]
  · rw [hread, if_pos rfl]
    cases n <;> rfl

/-! ## Halting -/

/-- Settles O35: the fetch finds no cell and changes nothing. -/
theorem quiescentStepChangesNothing : Obligations.QuiescentStepChangesNothing := by
  intro s hq
  rw [step_eq_finish_cycle, cycle_eq, fetch_not_found hq, bind_raised, finish_raised]

/-- The halt idiom moves the constant 8, the number of cells, to register 3 (D17). -/
theorem decodeWord_haltIdiom :
    decodeWord config (natBits 32 0x01800008) = .instr (.moveRegisterConstant (natBits 3 3) (natBits 23 8)) := by
  decide

/-- Settles O36: the step is the one store of 8 in PC, after the fetch of the word. -/
theorem haltIdiomQuiesces : Obligations.HaltIdiomQuiesces := by
  intro s hs hp hw
  have hpc : config.regNames[toInt (natBits 3 3)]? = some .PC := by decide
  have height : toInt (natBits 23 8) = 8 := by decide
  obtain ⟨t, hstore, hok, htpc, hreg, hmem⟩ :=
    storeReg_completes (cfg := config) (s := s.afterFetch config) .PC (v := .int 8) (config_valid.fromInt_fits le_rfl)
  have hstep : step s = .next t := by
    rw [step_eq_exec hs.mem_wf hp (hw ▸ decodeWord_haltIdiom), exec_moveRegisterConstant hpc, height, hstore]
  have hquiet : t.Quiescent config := by
    rw [State.Quiescent, ← reg_PC, htpc, normalize_int, toInt_fromInt, config_N]
  exact ⟨t, hstep, hok, hquiet, htpc, (hreg .IR (by decide)).trans hw, hreg .AC (by decide), hreg .DR (by decide),
    hreg .CR (by decide), hmem⟩

/-! ## Inspection -/

theorem readMemory_of_lt {a : Nat} (ha : a < cfg.N) (asInteger : Bool) :
    readMemory cfg a asInteger s = .of asInteger (s.mem.read cfg a) :=
  if_pos ⟨Int.natCast_nonneg a, Int.ofNat_lt.2 ha⟩

theorem readMemory_not_found {a : Int} (ha : a < 0 ∨ cfg.N ≤ a) (asInteger : Bool) :
    readMemory cfg a asInteger s = .error .addressNotFound :=
  if_neg (by omega)

/-- The five names are different texts, so a name finds its own register (R105). -/
theorem readRegister_registerText (r : RegName) (asInteger : Bool) :
    readRegister config (registerText r) asInteger s = .of asInteger (s.reg r) := by
  cases r <;> rfl

theorem readRegister_not_found {name : String} (h : ∀ r, registerText r ≠ name) (asInteger : Bool) :
    readRegister cfg name asInteger s = .error .registerNotFound := by
  have hnone : cfg.regNames.find? (fun r => registerText r = name) = none :=
    List.find?_eq_none.2 fun r _ => by simpa using h r
  rw [readRegister, hnone]

/-- The characters of one line of `dump()` (R103, D18). -/
def dumpLine (line : String × Bits) : List Char :=
  line.1.toList ++ [':', ' '] ++ line.2.map bitChar ++ ['\n']

/-- The text of `dump()` is its lines one after the other. -/
theorem dump_toList (cfg : Config) (s : State) : (dump cfg s).toList = (dumpLines cfg s).flatMap dumpLine := by
  rw [dump]
  induction dumpLines cfg s with
  | nil => rfl
  | cons line lines ih =>
    rw [List.foldr_cons, List.flatMap_cons, ← ih]
    simp [dumpLine, bitsText, bitChar]

/-- Settles O44: the replies are the inspecting functions' by definition; what those answer is said by the lemmas above. -/
theorem inspectionChangesNothing : Obligations.InspectionChangesNothing := by
  intro s registers cells
  have hname {name : String} {b : Bits} (h : (name, b) ∈ registers) : ∃ r, registerText r = name ∧ s.reg r = b := by
    simp only [registers, List.mem_cons, List.not_mem_nil, or_false, Prod.mk.injEq] at h
    rcases h with ⟨rfl, rfl⟩ | ⟨rfl, rfl⟩ | ⟨rfl, rfl⟩ | ⟨rfl, rfl⟩ | ⟨rfl, rfl⟩
    exacts [⟨.AC, rfl, rfl⟩, ⟨.DR, rfl, rfl⟩, ⟨.CR, rfl, rfl⟩, ⟨.PC, rfl, rfl⟩, ⟨.IR, rfl, rfl⟩]
  refine ⟨fun _ _ => rfl, fun _ _ => rfl, rfl, fun a ha => ⟨readMemory_of_lt ha _, readMemory_of_lt ha _⟩,
    fun a ha => readMemory_not_found ha, fun name b h => ?_, fun name h => readRegister_not_found ?_,
    dump_toList config s⟩
  · obtain ⟨r, rfl, rfl⟩ := hname h
    exact ⟨readRegister_registerText r false, readRegister_registerText r true⟩
  · rintro r rfl
    cases r <;> simp [registerText] at h

end Sys2Proof.Machine
end
